-- ==== Sys2Proof/Word.lean ====
section
/-! DEFINITION. The bit-string types of the block (00_scope.md R6, R7; 10_state.md R22, R23). -/

namespace Sys2Proof

/-- A one-bit port, field or flag. -/
abbrev Bit := BitVec 1

/-- One byte of a register word on the external bus (20_memory.md R62). -/
abbrev Byte := BitVec 8

/-- A command word, `CMDLEN` = 32 bits (30_encoding.md R90). -/
abbrev CmdWord := BitVec 32

/-- The register word ports `wi` and `wo`, `WLEN` = 40 bits (00_scope.md R6). -/
abbrev RegWord := BitVec 40

/-- The value ports `vi` and `vo`, `VLEN` = 80 bits, two's complement (00_scope.md R6). -/
abbrev Value := BitVec 80

/-- A device register address, "an 8-bit identifier" (20_memory.md R60). -/
abbrev RegAddr := BitVec 8

end Sys2Proof
end

