-- ==== Sys2Proof/Syntax.lean ====
section
/-! DEFINITION. The command set CODEC-1: one constructor per row of spec/opcode_table.json, in its order, with
the operand fields of its format (30_encoding.md R91 to R96) at the widths the format gives them. -/

namespace Sys2Proof

/-- The thirty-two commands. -/
inductive Instr where
  /-- R120 -/
  | nop
  /-- R124; `rw` is a register width code, `sgn` 1 for a signed field -/
  | unpack (rw : BitVec 2) (sgn : Bit) (width off : BitVec 6)
  /-- R125 -/
  | pack (rw : BitVec 2) (sgn : Bit) (width off : BitVec 6)
  /-- R127 -/
  | rmap (addr : RegAddr) (idx : BitVec 4)
  /-- R128 -/
  | unpackr (addr : RegAddr) (idx : BitVec 4)
  /-- R129 -/
  | packr (addr : RegAddr) (idx : BitVec 4)
  /-- R141 -/
  | enccfg
  /-- R142 -/
  | encadc
  /-- R144 -/
  | deccfg
  /-- R145 -/
  | decadc
  /-- R147; `m` is a mode code -/
  | muxsel (m : BitVec 4)
  /-- R149; `c` is a conversion-time code -/
  | ctsel (c : BitVec 3)
  /-- R150; `a` is an averaging code -/
  | avgsel (a : BitVec 3)
  /-- R148; `r` is an ADC range code -/
  | rngsel (r : Bit)
  /-- R161 -/
  | setcal
  /-- R162 -/
  | clrcal
  /-- R163; `s` is the new range policy -/
  | setctl (s : Bit)
  /-- R164 -/
  | enccal
  /-- R165 -/
  | enctco
  /-- R166; `sel` selects the context register, legal 0 to 4 -/
  | rdctx (sel : BitVec 3)
  /-- R181; `r` is the ADC range code -/
  | decvsh (r : Bit)
  /-- R182 -/
  | decvbus
  /-- R183 -/
  | dectemp
  /-- R184 -/
  | deccur
  /-- R185 -/
  | decpwr
  /-- R186 -/
  | deceng
  /-- R187 -/
  | decchg
  /-- R201 -/
  | decflg
  /-- R202; `b` holds latchEnable, convReadyOnAlert, assertOnAverage, alertPolarity, bit 3 first -/
  | encalrt (b : BitVec 4)
  /-- R203 -/
  | maskalrt
  /-- R204 -/
  | encthr (addr : RegAddr)
  /-- R205 -/
  | decthr (addr : RegAddr)
deriving DecidableEq, Repr

end Sys2Proof
end

