-- ==== Sys2Proof/WellFormed.lean ====
section
/-! DEFINITION. Which instructions a command word can name (30_encoding.md R98). Every operand field already
has exactly its format's width, so the one check left is RDCTX's selector. A bad descriptor or address is well
formed: it faults when the command executes (R99, R101). -/

namespace Sys2Proof

/-- `RDCTX` names a context register, selector 0 to 4 (30_encoding.md R98, 42_calibration_context.md R166). -/
def Instr.wellFormed : Instr → Bool
  | .rdctx sel => decide (sel.toNat ≤ 4)
  | .nop | .unpack .. | .pack .. | .rmap .. | .unpackr .. | .packr .. => true
  | .enccfg | .encadc | .deccfg | .decadc | .muxsel _ | .ctsel _ | .avgsel _ | .rngsel _ => true
  | .setcal | .clrcal | .setctl _ | .enccal | .enctco => true
  | .decvsh _ | .decvbus | .dectemp | .deccur | .decpwr | .deceng | .decchg => true
  | .decflg | .encalrt _ | .maskalrt | .encthr _ | .decthr _ => true

end Sys2Proof
end

