-- ==== Sys2Proof/Decode.lean ====
section
/-! DEFINITION. The decoder of command words (30_encoding.md R96 to R101), total, rejecting by name, and the
encoder beside it (R105). -/

namespace Sys2Proof

/-- Why a command word is illegal (30_encoding.md R97, R98); each reason is reported as IllegalCommand. -/
inductive Reject where
  /-- the `op` field selects no command (R97) -/
  | reservedOp
  /-- a must-be-zero bit is 1 (R98) -/
  | mustBeZero
  /-- RDCTX with a selector that names no context register (R98) -/
  | badSelector
deriving DecidableEq, Repr

/-- What decoding a command word answers (R101): a command, or IllegalCommand with the word's `op`. -/
inductive Decoded where
  | instr (i : Instr)
  | illegal (why : Reject) (op : BitVec 6)
deriving DecidableEq, Repr

/-- One row of the opcode map (R96): a word `c` selects it iff `c & mask = pat`. -/
structure OpRow where
  op : BitVec 6
  pat : CmdWord
  mask : CmdWord
  build : CmdWord → Instr

/-- `cmd[31:26]` (R90). -/
def opOf (c : CmdWord) : BitVec 6 := c.extractLsb' 26 6

/-- Format F's register width code, bits 25:24 (R92). -/
def rwOf (c : CmdWord) : BitVec 2 := c.extractLsb' 24 2

/-- Format F's signedness, bit 15 (R92). -/
def sgnOf (c : CmdWord) : Bit := c.extractLsb' 15 1

/-- Format F's field width, bits 13:8 (R92). -/
def widthOf (c : CmdWord) : BitVec 6 := c.extractLsb' 8 6

/-- Format F's bit offset, bits 5:0 (R92). -/
def offOf (c : CmdWord) : BitVec 6 := c.extractLsb' 0 6

/-- Format A's register address, bits 23:16 (R93). -/
def addrOf (c : CmdWord) : RegAddr := c.extractLsb' 16 8

/-- Format A's field index, bits 3:0 (R93). -/
def idxOf (c : CmdWord) : BitVec 4 := c.extractLsb' 0 4

/-- The low `k` bits of format I's immediate (R94). -/
def immOf (k : Nat) (c : CmdWord) : BitVec k := c.extractLsb' 0 k

/-- The opcode map (R96). -/
def opRows : List OpRow :=
  [ ⟨0x00#6, 0x00000000#32, 0xFFFFFFFF#32, fun _ => .nop⟩,
    ⟨0x01#6, 0x04000000#32, 0xFCFF40C0#32, fun c => .unpack (rwOf c) (sgnOf c) (widthOf c) (offOf c)⟩,
    ⟨0x02#6, 0x08000000#32, 0xFCFF40C0#32, fun c => .pack (rwOf c) (sgnOf c) (widthOf c) (offOf c)⟩,
    ⟨0x03#6, 0x0C000000#32, 0xFF00FFF0#32, fun c => .rmap (addrOf c) (idxOf c)⟩,
    ⟨0x04#6, 0x10000000#32, 0xFF00FFF0#32, fun c => .unpackr (addrOf c) (idxOf c)⟩,
    ⟨0x05#6, 0x14000000#32, 0xFF00FFF0#32, fun c => .packr (addrOf c) (idxOf c)⟩ ] ++
  [ ⟨0x08#6, 0x20000000#32, 0xFFFFFFFF#32, fun _ => .enccfg⟩,
    ⟨0x09#6, 0x24000000#32, 0xFFFFFFFF#32, fun _ => .encadc⟩,
    ⟨0x0A#6, 0x28000000#32, 0xFFFFFFFF#32, fun _ => .deccfg⟩,
    ⟨0x0B#6, 0x2C000000#32, 0xFFFFFFFF#32, fun _ => .decadc⟩,
    ⟨0x0C#6, 0x30000000#32, 0xFFFFFFF0#32, fun c => .muxsel (immOf 4 c)⟩,
    ⟨0x0D#6, 0x34000000#32, 0xFFFFFFF8#32, fun c => .ctsel (immOf 3 c)⟩,
    ⟨0x0E#6, 0x38000000#32, 0xFFFFFFF8#32, fun c => .avgsel (immOf 3 c)⟩,
    ⟨0x0F#6, 0x3C000000#32, 0xFFFFFFFE#32, fun c => .rngsel (immOf 1 c)⟩ ] ++
  [ ⟨0x10#6, 0x40000000#32, 0xFFFFFFFF#32, fun _ => .setcal⟩,
    ⟨0x11#6, 0x44000000#32, 0xFFFFFFFF#32, fun _ => .clrcal⟩,
    ⟨0x12#6, 0x48000000#32, 0xFFFFFFFE#32, fun c => .setctl (immOf 1 c)⟩,
    ⟨0x13#6, 0x4C000000#32, 0xFFFFFFFF#32, fun _ => .enccal⟩,
    ⟨0x14#6, 0x50000000#32, 0xFFFFFFFF#32, fun _ => .enctco⟩,
    ⟨0x15#6, 0x54000000#32, 0xFFFFFFF8#32, fun c => .rdctx (immOf 3 c)⟩ ] ++
  [ ⟨0x18#6, 0x60000000#32, 0xFFFFFFFE#32, fun c => .decvsh (immOf 1 c)⟩,
    ⟨0x19#6, 0x64000000#32, 0xFFFFFFFF#32, fun _ => .decvbus⟩,
    ⟨0x1A#6, 0x68000000#32, 0xFFFFFFFF#32, fun _ => .dectemp⟩,
    ⟨0x1B#6, 0x6C000000#32, 0xFFFFFFFF#32, fun _ => .deccur⟩,
    ⟨0x1C#6, 0x70000000#32, 0xFFFFFFFF#32, fun _ => .decpwr⟩,
    ⟨0x1D#6, 0x74000000#32, 0xFFFFFFFF#32, fun _ => .deceng⟩,
    ⟨0x1E#6, 0x78000000#32, 0xFFFFFFFF#32, fun _ => .decchg⟩ ] ++
  [ ⟨0x20#6, 0x80000000#32, 0xFFFFFFFF#32, fun _ => .decflg⟩,
    ⟨0x21#6, 0x84000000#32, 0xFFFFFFF0#32, fun c => .encalrt (immOf 4 c)⟩,
    ⟨0x22#6, 0x88000000#32, 0xFFFFFFFF#32, fun _ => .maskalrt⟩,
    ⟨0x23#6, 0x8C000000#32, 0xFF00FFFF#32, fun c => .encthr (addrOf c)⟩,
    ⟨0x24#6, 0x90000000#32, 0xFF00FFFF#32, fun c => .decthr (addrOf c)⟩ ]

/-- Decoding, R101: the row of the word's `op`, then its must-be-zero bits, then RDCTX's selector. -/
def decode (c : CmdWord) : Decoded :=
  match opRows.find? (fun r => r.op == opOf c) with
  | none => .illegal .reservedOp (opOf c)
  | some r =>
    if c &&& r.mask = r.pat then
      if (r.build c).wellFormed then .instr (r.build c) else .illegal .badSelector (opOf c)
    else .illegal .mustBeZero (opOf c)

/-- Format N: `op << 26` (R105). -/
def encN (op : BitVec 6) : CmdWord := op.setWidth 32 <<< 26

/-- Format F (R105). -/
def encF (op : BitVec 6) (rw : BitVec 2) (sgn : Bit) (width off : BitVec 6) : CmdWord :=
  op.setWidth 32 <<< 26 ||| rw.setWidth 32 <<< 24 ||| sgn.setWidth 32 <<< 15 ||| width.setWidth 32 <<< 8
    ||| off.setWidth 32

/-- Format A (R105). -/
def encA (op : BitVec 6) (addr : RegAddr) (idx : BitVec 4) : CmdWord :=
  op.setWidth 32 <<< 26 ||| addr.setWidth 32 <<< 16 ||| idx.setWidth 32

/-- Format I (R105), for a command that uses the low `k` bits of the immediate (R94). -/
def encI {k : Nat} (op : BitVec 6) (imm : BitVec k) : CmdWord := op.setWidth 32 <<< 26 ||| imm.setWidth 32

/-- The command word of an instruction (R105); for a well-formed one the word `decode` reads it from. -/
def encode : Instr → CmdWord
  | .nop => encN 0x00#6
  | .unpack rw sgn width off => encF 0x01#6 rw sgn width off
  | .pack rw sgn width off => encF 0x02#6 rw sgn width off
  | .rmap addr idx => encA 0x03#6 addr idx
  | .unpackr addr idx => encA 0x04#6 addr idx
  | .packr addr idx => encA 0x05#6 addr idx
  | .enccfg => encN 0x08#6
  | .encadc => encN 0x09#6
  | .deccfg => encN 0x0A#6
  | .decadc => encN 0x0B#6
  | .muxsel m => encI 0x0C#6 m
  | .ctsel c => encI 0x0D#6 c
  | .avgsel a => encI 0x0E#6 a
  | .rngsel r => encI 0x0F#6 r
  | .setcal => encN 0x10#6
  | .clrcal => encN 0x11#6
  | .setctl s => encI 0x12#6 s
  | .enccal => encN 0x13#6
  | .enctco => encN 0x14#6
  | .rdctx sel => encI 0x15#6 sel
  | .decvsh r => encI 0x18#6 r
  | .decvbus => encN 0x19#6
  | .dectemp => encN 0x1A#6
  | .deccur => encN 0x1B#6
  | .decpwr => encN 0x1C#6
  | .deceng => encN 0x1D#6
  | .decchg => encN 0x1E#6
  | .decflg => encN 0x20#6
  | .encalrt b => encI 0x21#6 b
  | .maskalrt => encN 0x22#6
  | .encthr addr => encA 0x23#6 addr 0#4
  | .decthr addr => encA 0x24#6 addr 0#4

/-- The command word whose low `nbits` bits are those of `w` and whose other bits are 0. -/
def tableWord (nbits w : Nat) : CmdWord := BitVec.ofNat 32 (w % 2 ^ nbits)

/-- The instruction the decoder reads from a word of the opcode table, whose bits are numbered as the command
word's are (30_encoding.md R90, R96); none where the word is illegal or longer than a command word. -/
def decodeTableWord (nbits w : Nat) : Option Instr :=
  if w % 2 ^ nbits < 2 ^ 32 then
    match decode (tableWord nbits w) with
    | .instr i => some i
    | .illegal _ _ => none
  else none

end Sys2Proof
end

