-- ==== Sys2Proof/Config.lean ====
section
/-! DEFINITION. The implementation parameters of 00_scope.md R6 that are numbers, and the free values of the
device (no body: nothing can be proved of what they are). -/

namespace Sys2Proof.Config

/-- `STRICT_RESET`: the reset value of `ctl.strict` (00_scope.md R6, 10_state.md R50). -/
def strictReset : Bit := 1#1

/-- `FRAC_OFF`: the offset of the 20-bit field in the 24-bit registers 0x04, 0x05, 0x07 (00_scope.md R6). -/
def fracOff : Nat := 4

/-- `SCALE_FRAC`: the fractional bits of `cal.cur_lsb` and `cal.pwr_lsb`, which are UQ16.16 (00_scope.md R6). -/
def scaleFrac : Nat := 16

/-- `ENERGY_MULT`: from the power scale factor to the energy scale factor (00_scope.md R6). -/
def energyMult : Nat := 16

/-- `CHARGE_MULT`: from the current scale factor to the charge scale factor (00_scope.md R6). -/
def chargeMult : Nat := 1

/-- `VBUS_MULT`: the bus LSB in units of 2^-7 millivolt (00_scope.md R6). -/
def vbusMult : Nat := 25

/-- `TEMP_MULT`: the temperature LSB in units of 2^-5 centi-degree Celsius (00_scope.md R6). -/
def tempMult : Nat := 25

/-- `NTHRESH`: the number of threshold registers (00_scope.md R6, 90_conflicts.md C1). -/
def nThresh : Nat := 6

/-- The free value of the `n`-th read of the device: what the device supplies in the bits not yet known
(20_memory.md R77, 93 U7). DESIGN CHOICE, safe: log 8. -/
opaque deviceDraw : Nat → RegWord

/-- The constant of `manufacturer_id`, which the spec does not give (10_state.md R44). Log 13. -/
opaque manufacturerId : BitVec 16

/-- The constant of `device_id`, which the spec does not give (10_state.md R45). Log 13. -/
opaque deviceId : BitVec 16

end Sys2Proof.Config
end

