-- ==== Sys2Proof/Machine/State.lean ====
section
/-! DEFINITION. The state: the six context registers of 10_state.md R25, the input and output ports of R22 and
R23, and what the host knows of the device register file (20_memory.md R60, R77). Plain data. -/

namespace Sys2Proof.Machine

/-- The `ci.*` input ports, one Configuration (10_state.md R22). -/
structure ConfigIn where
  rst : Bit := 0#1
  rstacc : Bit := 0#1
  convdly : BitVec 8 := 0#8
  tempcomp : Bit := 0#1
  adcrange : Bit := 0#1
  mode : BitVec 4 := 0#4
  vbusct : BitVec 3 := 0#3
  vshct : BitVec 3 := 0#3
  vtct : BitVec 3 := 0#3
  avg : BitVec 3 := 0#3
deriving DecidableEq, Repr

/-- The `ki.*` input ports, one CalibrationContext (10_state.md R22). -/
structure CalIn where
  shuntCal : BitVec 15 := 0#15
  tempco : BitVec 14 := 0#14
  curLsb : BitVec 32 := 0#32
  pwrLsb : BitVec 32 := 0#32
deriving DecidableEq, Repr

/-- The input ports, sampled once per step (10_state.md R22). The default, all zeros, is the model's value at
reset (DESIGN CHOICE, log 3). -/
structure Inputs where
  rst : Bit := 0#1
  cmd : CmdWord := 0#32
  wi : RegWord := 0#40
  vi : Value := 0#80
  xerr : Bit := 0#1
  xinfo : BitVec 8 := 0#8
  ci : ConfigIn := {}
  ki : CalIn := {}
deriving DecidableEq, Repr

/-- The `co.*` output ports, the decoded Configuration; `none` is "holds no value" (10_state.md R23). -/
structure ConfigOut where
  rst : Option Bit := none
  rstacc : Option Bit := none
  convdly : Option (BitVec 8) := none
  tempcomp : Option Bit := none
  adcrange : Option Bit := none
  mode : Option (BitVec 4) := none
  vbusct : Option (BitVec 3) := none
  vshct : Option (BitVec 3) := none
  vtct : Option (BitVec 3) := none
  avg : Option (BitVec 3) := none
deriving DecidableEq, Repr

/-- The `fo.*` output ports, the decoded DiagnosticFlags, named as in 10_state.md R42. -/
structure FlagsOut where
  alertLatch : Option Bit := none
  convReadyOnAlert : Option Bit := none
  assertOnAverage : Option Bit := none
  alertPolarity : Option Bit := none
  energyOverflow : Option Bit := none
  chargeOverflow : Option Bit := none
  mathOverflow : Option Bit := none
  tempOverLimit : Option Bit := none
  shuntOverLimit : Option Bit := none
  shuntUnderLimit : Option Bit := none
  busOverLimit : Option Bit := none
  busUnderLimit : Option Bit := none
  powerOverLimit : Option Bit := none
  conversionComplete : Option Bit := none
  checksumError : Option Bit := none
deriving DecidableEq, Repr

/-- The `mo.*` output ports, the ADC mux enables (10_state.md R23). -/
structure MuxOut where
  cont : Option Bit := none
  temp : Option Bit := none
  shunt : Option Bit := none
  bus : Option Bit := none
  shutdown : Option Bit := none
deriving DecidableEq, Repr

/-- The `do.*` output ports, a register map lookup (10_state.md R23). -/
structure MapOut where
  valid : Option Bit := none
  rw : Option (BitVec 2) := none
  nfields : Option (BitVec 4) := none
  off : Option (BitVec 6) := none
  width : Option (BitVec 6) := none
  sgn : Option Bit := none
deriving DecidableEq, Repr

/-- The output ports of one step. A port the step does not drive holds no value: `none`, never zero
(10_state.md R23). `do` is a word of Lean, so the `do.*` ports stand in `dout`. -/
structure Outputs where
  wo : Option RegWord := none
  vo : Option Value := none
  co : ConfigOut := {}
  fo : FlagsOut := {}
  mo : MuxOut := {}
  dout : MapOut := {}
  flt : Option (BitVec 4) := none
  finfo : Option (BitVec 8) := none
deriving DecidableEq, Repr

/-- What is known of the bits of the device that only the host's writes change, last written or else first read,
byte by byte: byte `k` on the bus of the register at address `a` stands under the key `8 * a + k` (20_memory.md
R60, R64, R77; log 7). -/
abbrev Memory := List Host.Cell

/-- The machine. -/
structure State where
  /-- `ctl.strict` (10_state.md R25) -/
  strict : Bit
  /-- `cal.valid` (R25) -/
  calValid : Bit
  /-- `cal.shunt_cal`; absent is the spec's own "holds no value" (R25, R27; log 5) -/
  shuntCal : Option (BitVec 15)
  /-- `cal.tempco`, as above -/
  tempco : Option (BitVec 14)
  /-- `cal.cur_lsb`, UQ16.16 microampere per count, as above -/
  curLsb : Option (BitVec 32)
  /-- `cal.pwr_lsb`, UQ16.16 microwatt per count, as above -/
  pwrLsb : Option (BitVec 32)
  /-- the input ports as the host holds them (R22; log 2) -/
  inp : Inputs
  /-- the output ports of the latest step (R23; log 6) -/
  out : Outputs
  /-- the device register file, as far as the host's writes and reads fix it (20_memory.md R77; logs 7, 8) -/
  dev : Memory
  /-- the model's own: how many free values the device's reads have drawn (log 8) -/
  draws : Nat
deriving DecidableEq, Repr

/-- Why the machine stops. The block itself never stops (70_reset_and_hazards.md R265): only the host's bus
operations raise this, never `step`. -/
inductive Fault where
  /-- `busRead` and `busWrite`: the address names no register (20_memory.md R60, R63). Safe: the device goes on,
  the model stops. -/
  | unmappedAddress (addr : RegAddr)
deriving DecidableEq, Repr

/-- What the model gives no meaning to. -/
inductive Refusal where
  /-- Raised by `exec` for an instruction without a meaning; no arm uses it. Safe. -/
  | notModelled (mnemonic : String)
  /-- `busRead` and `busWrite`: an access of another size than the register's (20_memory.md R63). Safe. -/
  | accessSize (addr : RegAddr) (n : Nat)
  /-- `busWrite`: a write of a register the spec marks read-only or constant, to which it gives no device
  reaction (93 U16). Safe. -/
  | readOnlyRegister (addr : RegAddr)
deriving DecidableEq, Repr

/-- The machine right after reset (10_state.md R50, 70_reset_and_hazards.md R250): no output holds a value,
nothing is known of the device (10_state.md R51). The ports' zeros are the model's (log 3), and so is the
start of the draw counter (log 8). -/
def State.reset : State where
  strict := Config.strictReset
  calValid := 0#1
  shuntCal := none
  tempco := none
  curLsb := none
  pwrLsb := none
  inp := {}
  out := {}
  dev := []
  draws := 0

/-- The answer of a step, a command or a bus operation. -/
abbrev Result := Host.Outcome State Fault Refusal

end Sys2Proof.Machine
end

