-- ==== Sys2Proof/Machine/Flags.lean ====
section
/-! DEFINITION. The block's two flags and the registers that go with one of them (10_state.md R25 to R27). There
are no condition codes: no command sets a flag as a side effect of computing a value (R26). -/

namespace Sys2Proof.Machine

/-- `ctl.strict <- b` (42_calibration_context.md R163). -/
def State.setStrict (s : State) (b : Bit) : State := { s with strict := b }

/-- The four value registers and `cal.valid`, written together (42_calibration_context.md R161). -/
def State.loadCal (s : State) (k : CalIn) : State :=
  { s with calValid := 1#1, shuntCal := some k.shuntCal, tempco := some k.tempco,
           curLsb := some k.curLsb, pwrLsb := some k.pwrLsb }

/-- `cal.valid <- 0`; the four value registers hold no value after it (42_calibration_context.md R162). -/
def State.dropCal (s : State) : State :=
  { s with calValid := 0#1, shuntCal := none, tempco := none, curLsb := none, pwrLsb := none }

/-- What a read of one of the four value registers finds: conditional on `cal.valid` (10_state.md R27). -/
def State.calReg {w : Nat} (s : State) (r : Option (BitVec w)) : Option (BitVec w) :=
  if s.calValid = 1#1 then r else none

/-- `{ctl.strict, cal.valid}` (42_calibration_context.md R166). -/
def State.statusBits (s : State) : BitVec 2 := s.strict ++ s.calValid

end Sys2Proof.Machine
end

