-- ==== Sys2Proof/Machine/RegMap.lean ====
section
/-! DEFINITION. The Register Map, the constant table of 10_state.md R30 to R47. -/

namespace Sys2Proof.Machine

/-- The three register widths (00_scope.md R9). -/
inductive RegWidth where
  | w16 | w24 | w40
deriving DecidableEq, Repr

/-- `RW(rw)` in bits (00_scope.md R9). -/
def RegWidth.bits : RegWidth → Nat
  | .w16 => 16
  | .w24 => 24
  | .w40 => 40

/-- The bytes of an access, `RW(rw) / 8` (20_memory.md R63). -/
def RegWidth.bytes (W : RegWidth) : Nat := W.bits / 8

/-- The 2-bit code of a register width (00_scope.md R9). -/
def RegWidth.code : RegWidth → BitVec 2
  | .w16 => 0#2
  | .w24 => 1#2
  | .w40 => 2#2

/-- The register width a code selects; `RW(3)` is not defined (00_scope.md R9). -/
def RegWidth.ofCode (rw : BitVec 2) : Option RegWidth :=
  if rw = 0#2 then some .w16 else if rw = 1#2 then some .w24 else if rw = 2#2 then some .w40 else none

/-- Who may change a register on the device (10_state.md R49). Informative: the block enforces none of it. -/
inductive Access where
  /-- read/write: 0x00 to 0x03, 0x0C to 0x11 -/
  | readWrite
  /-- read-only or constant: 0x04 to 0x0A, 0x3E, 0x3F -/
  | readOnly
  /-- `diagnostic_flags`: configuration bits written by the caller, status bits by the chip (R42) -/
  | mixed
deriving DecidableEq, Repr

/-- A FieldDescriptor: `{name, off, width, sgn}` (10_state.md R30). -/
structure FieldDesc where
  name : String
  off : BitVec 6
  width : BitVec 6
  sgn : Bit
deriving DecidableEq, Repr

/-- A record of the Register Map: `{name, rw, nfields, field[..]}` (10_state.md R30), with its address and its
device access right. -/
structure RegRecord where
  addr : RegAddr
  name : String
  rw : RegWidth
  access : Access
  fields : List FieldDesc
deriving DecidableEq, Repr

/-- A one-bit unsigned field. -/
def flagField (name : String) (bit : BitVec 6) : FieldDesc := ⟨name, bit, 1#6, 0#1⟩

/-- `config` (R31). -/
def recConfig : RegRecord := ⟨0x00#8, "config", .w16, .readWrite,
  [flagField "reset" 15#6, flagField "reset_accumulators" 14#6, ⟨"adc_conversion_delay", 6#6, 8#6, 0#1⟩,
   flagField "temp_compensation_enable" 5#6, flagField "adc_range" 4#6]⟩

/-- `adc_config` (R32). -/
def recAdcConfig : RegRecord := ⟨0x01#8, "adc_config", .w16, .readWrite,
  [⟨"mode", 12#6, 4#6, 0#1⟩, ⟨"bus_conv_time", 9#6, 3#6, 0#1⟩, ⟨"shunt_conv_time", 6#6, 3#6, 0#1⟩,
   ⟨"temp_conv_time", 3#6, 3#6, 0#1⟩, ⟨"averaging_count", 0#6, 3#6, 0#1⟩]⟩

/-- `diagnostic_flags` (R42). -/
def recDiagFlags : RegRecord := ⟨0x0B#8, "diagnostic_flags", .w16, .mixed,
  [flagField "alert_latch" 15#6, flagField "conv_ready_on_alert" 14#6, flagField "assert_on_average" 13#6,
   flagField "alert_polarity" 12#6, flagField "energy_overflow" 11#6, flagField "charge_overflow" 10#6,
   flagField "math_overflow" 9#6, flagField "temp_over_limit" 7#6, flagField "shunt_over_limit" 6#6,
   flagField "shunt_under_limit" 5#6, flagField "bus_over_limit" 4#6, flagField "bus_under_limit" 3#6,
   flagField "power_over_limit" 2#6, flagField "conversion_complete" 1#6, flagField "checksum_error" 0#6]⟩

/-- A threshold register: one 16-bit unsigned field (R43). -/
def recThreshold (addr : RegAddr) (name : String) : RegRecord :=
  ⟨addr, name, .w16, .readWrite, [⟨"threshold", 0#6, 16#6, 0#1⟩]⟩

/-- A measurement register: one field `raw` (R35 to R41). -/
def recMeasure (addr : RegAddr) (name : String) (rw : RegWidth) (off width : BitVec 6) (sgn : Bit) : RegRecord :=
  ⟨addr, name, rw, .readOnly, [⟨"raw", off, width, sgn⟩]⟩

/-- The twenty registers (R31 to R45, summary R47). -/
def regTable : List RegRecord :=
  [ recConfig, recAdcConfig,
    ⟨0x02#8, "shunt_calibration", .w16, .readWrite, [⟨"calibration", 0#6, 15#6, 0#1⟩]⟩,
    ⟨0x03#8, "shunt_temp_coefficient", .w16, .readWrite, [⟨"coefficient", 0#6, 14#6, 0#1⟩]⟩,
    recMeasure 0x04#8 "shunt_voltage" .w24 4#6 20#6 1#1,
    recMeasure 0x05#8 "bus_voltage" .w24 4#6 20#6 0#1,
    recMeasure 0x06#8 "die_temperature" .w16 0#6 16#6 1#1,
    recMeasure 0x07#8 "current" .w24 4#6 20#6 1#1,
    recMeasure 0x08#8 "power" .w24 0#6 24#6 0#1,
    recMeasure 0x09#8 "energy" .w40 0#6 40#6 0#1,
    recMeasure 0x0A#8 "charge" .w40 0#6 40#6 1#1,
    recDiagFlags ] ++
  [ recThreshold 0x0C#8 "shunt_overvoltage_threshold",
    recThreshold 0x0D#8 "shunt_undervoltage_threshold",
    recThreshold 0x0E#8 "bus_overvoltage_threshold",
    recThreshold 0x0F#8 "bus_undervoltage_threshold",
    recThreshold 0x10#8 "temperature_over_threshold",
    recThreshold 0x11#8 "power_over_threshold",
    ⟨0x3E#8, "manufacturer_id", .w16, .readOnly, [⟨"id", 0#6, 16#6, 0#1⟩]⟩,
    ⟨0x3F#8, "device_id", .w16, .readOnly, [⟨"id", 0#6, 16#6, 0#1⟩]⟩ ]

/-- `RMAP(addr)`: the record of a mapped address, none for an unmapped one (R30, R46). -/
def rmapLookup (addr : RegAddr) : Option RegRecord := regTable.find? (fun r => r.addr == addr)

/-- `nfields` of a record (R30). -/
def RegRecord.nfields (r : RegRecord) : Nat := r.fields.length

/-- `RMAP(addr).field[idx]`: none when the address is unmapped or `idx >= nfields`. -/
def mapField (addr : RegAddr) (idx : BitVec 4) : Option (RegWidth × FieldDesc) :=
  match rmapLookup addr with
  | none => none
  | some r => (r.fields[idx.toNat]?).map (fun d => (r.rw, d))

/-- The bits a field covers, `fmask(off, width)` as a 40-bit string (00_scope.md R9). -/
def FieldDesc.mask (d : FieldDesc) : RegWord := BitVec.ofNat 40 ((2 ^ d.width.toNat - 1) <<< d.off.toNat)

/-- The bits of a register that belong to some field. -/
def RegRecord.usedMask (r : RegRecord) : RegWord := r.fields.foldl (fun m d => m ||| d.mask) 0#40

/-- The reserved bits of a register (R48): its bits that belong to no field. -/
def RegRecord.reservedMask (r : RegRecord) : RegWord := BitVec.ofNat 40 (2 ^ r.rw.bits - 1) &&& ~~~r.usedMask

/-- `DIAG_CFG_MASK` (R42). -/
def diagCfgMask : BitVec 16 := 0xF000#16

/-- `DIAG_STS_MASK` (R42). -/
def diagStsMask : BitVec 16 := 0x0EFF#16

/-- The threshold registers, the `NTHRESH` addresses 0x0C to 0x11 (R43). -/
def isThreshold (addr : RegAddr) : Bool := decide (0x0C ≤ addr.toNat ∧ addr.toNat < 0x0C + Config.nThresh)

end Sys2Proof.Machine
end

