-- ==== Sys2Proof/Machine/Operands.lean ====
section
/-! DEFINITION. Operand forms and arithmetic: the field helpers of 00_scope.md R8 and R9, the value ports of
40_field_codec.md R122 and R123, the descriptors of R121, the tables of the selectors. -/

namespace Sys2Proof.Machine

/-- The register word on a word port, `wi[W-1:0]`: bits at and above the width are ignored (10_state.md R29). -/
def regPart (W : Nat) (wi : RegWord) : BitVec W := wi.setWidth W

/-- A register word on the 40-bit port, zeros above it (10_state.md R29). -/
def zext40 {W : Nat} (w : BitVec W) : RegWord := w.setWidth 40

/-- `fmask(off, w)` at the width of a word (00_scope.md R9). -/
def fmask (W off w : Nat) : BitVec W := BitVec.ofNat W ((2 ^ w - 1) <<< off)

/-- `fget(word, off, w)` (00_scope.md R9). -/
def fget {W : Nat} (word : BitVec W) (off w : Nat) : BitVec w := word.extractLsb' off w

/-- `fput(word, off, w, f)` (00_scope.md R9). -/
def fput {W w : Nat} (word : BitVec W) (off : Nat) (f : BitVec w) : BitVec W :=
  (word &&& ~~~fmask W off w) ||| (f.setWidth W <<< off)

/-- `sint_w` or `uint_w` of a field, by its signedness (00_scope.md R8). -/
def fieldInt {w : Nat} (sgn : Bit) (f : BitVec w) : Int := if sgn = 1#1 then f.toInt else f.toNat

/-- `trunc_w(v)`, two's-complement wraparound (00_scope.md R8). -/
def truncTo (w : Nat) (v : Int) : BitVec w := BitVec.ofInt w v

/-- `tc_80(v)`, the value port's form of an integer (00_scope.md R8). -/
def tc80 (v : Int) : Value := BitVec.ofInt 80 v

/-- `zext_80` (00_scope.md R8). -/
def zext80 {w : Nat} (b : BitVec w) : Value := b.setWidth 80

/-- The value on `vi`, by the field's signedness (40_field_codec.md R122). -/
def packValue (sgn : Bit) (vi : Value) : Int := fieldInt sgn vi

/-- The representable range of a field (40_field_codec.md R122). -/
def inRange (sgn : Bit) (width : Nat) (v : Int) : Bool :=
  if sgn = 1#1 then decide (-(2 ^ (width - 1) : Int) ≤ v ∧ v ≤ 2 ^ (width - 1) - 1)
  else decide (0 ≤ v ∧ v ≤ 2 ^ width - 1)

/-- The register width of a legal descriptor; none when the descriptor is not legal (40_field_codec.md R121). -/
def descWidth (rw : BitVec 2) (width off : BitVec 6) : Option RegWidth :=
  match RegWidth.ofCode rw with
  | none => none
  | some W =>
    if 1 ≤ width.toNat ∧ width.toNat ≤ 40 ∧ off.toNat + width.toNat ≤ W.bits then some W else none

/-- The value an unpack delivers on `vo` (40_field_codec.md R124). -/
def unpackValue (W : RegWidth) (sgn : Bit) (width off : Nat) (wi : RegWord) : Value :=
  tc80 (fieldInt sgn (fget (regPart W.bits wi) off width))

/-- The word a pack delivers on `wo` (40_field_codec.md R125). -/
def packWord (W : RegWidth) (width off : Nat) (wi : RegWord) (v : Int) : RegWord :=
  zext40 (fput (regPart W.bits wi) off (truncTo width v))

/-- The exact product of a field and a scale, on `vo` (43_measurement.md R180). -/
def scaled {w : Nat} (sgn : Bit) (f : BitVec w) (scale : Nat) : Value := tc80 (fieldInt sgn f * scale)

/-- `VSH_MULT[r]`, the shunt LSB in units of 2^-7 microvolt (00_scope.md R6, 41_configuration.md R148). -/
def vshMult (r : Bit) : Nat := if r = 1#1 then 10 else 40

/-- `CT_US[c]`, microseconds (41_configuration.md R149). -/
def ctTable : List Nat := [50, 84, 150, 280, 540, 1052, 2074, 4120]

/-- `AVG_N[a]`, samples (41_configuration.md R150). -/
def avgTable : List Nat := [1, 4, 16, 64, 128, 256, 512, 1024]

/-- An entry of one of the two tables of eight. -/
def selEntry (table : List Nat) (code : BitVec 3) : Nat := table.getD code.toNat 0

/-- A conversion time, by its code (41_configuration.md R149). -/
def ctMicros (c : BitVec 3) : Nat := selEntry ctTable c

/-- An averaging count, by its code (41_configuration.md R150). -/
def avgCount (a : BitVec 3) : Nat := selEntry avgTable a

/-- One bit of a word, as a one-bit port value. -/
def bitAt {W : Nat} (w : BitVec W) (i : Nat) : Bit := w.extractLsb' i 1

end Sys2Proof.Machine
end

