-- ==== Sys2Proof/Machine/Ops.lean ====
section
/-! DEFINITION. The shared operations of the block: sampling and driving ports, completing a command, raising a
fault (60_exceptions.md), the tests every command makes in the order of R228, the reset step. -/

namespace Sys2Proof.Machine

/-- The faults of 60_exceptions.md R220, each with what its `finfo` carries. -/
inductive CmdFault where
  /-- the field width -/
  | codecRange (width : Nat)
  /-- the collaborator's code, unchanged -/
  | transport (xinfo : BitVec 8)
  | staleCalibration
  /-- the `op` field of the word -/
  | illegalCommand (op : BitVec 6)
  | badDescriptor
  /-- the address of the command word -/
  | badAddress (addr : RegAddr)
deriving DecidableEq, Repr

/-- `flt` (60_exceptions.md R220). -/
def CmdFault.code : CmdFault → BitVec 4
  | .codecRange _ => 1#4
  | .transport _ => 2#4
  | .staleCalibration => 3#4
  | .illegalCommand _ => 4#4
  | .badDescriptor => 5#4
  | .badAddress _ => 6#4

/-- `finfo` (60_exceptions.md R220). -/
def CmdFault.info : CmdFault → BitVec 8
  | .codecRange width => BitVec.ofNat 8 width
  | .transport xinfo => xinfo
  | .staleCalibration => 0#8
  | .illegalCommand op => op.setWidth 8
  | .badDescriptor => 0#8
  | .badAddress addr => addr

/-- The outputs of a faulting command: `flt` and `finfo`, no other port (60_exceptions.md R226). -/
def CmdFault.outputs (f : CmdFault) : Outputs := { flt := some f.code, finfo := some f.info }

/-- Drive the output ports of this step; every port not in `o` holds no value (10_state.md R23). -/
def State.drive (s : State) (o : Outputs) : State := { s with out := o }

/-- The host drives the input ports (10_state.md R22). -/
def State.present (s : State) (p : Inputs) : State := { s with inp := p }

/-- The host brings a new content of the device register file about (20_memory.md R62). -/
def State.setDev (s : State) (m : Memory) : State := { s with dev := m }

/-- One more free value of the device is used up (log 8). -/
def State.countDraw (s : State) : State := { s with draws := s.draws + 1 }

/-- RAISING A FAULT, the block's only exception (60_exceptions.md R226): the fault's two ports are driven and
nothing else, no context register is written, and the next command runs as if nothing had happened. There is
no vector, no saved state and no return (R226, R231). A next state: log 1. -/
def raise (f : CmdFault) (s : State) : Result := .next (s.drive f.outputs)

/-- Completing a command: `flt` is 0, `finfo` holds no value, the ports in `o` are driven (R220; 10_state.md R23). -/
def complete (o : Outputs) (s : State) : Result := .next (s.drive { o with flt := some 0#4, finfo := none })

/-- Consuming `wi`: TransportError when the read that produced it failed (60_exceptions.md R222). -/
def consumeWi (s : State) (k : RegWord → Result) : Result :=
  if s.inp.xerr = 1#1 then raise (.transport s.inp.xinfo) s else k s.inp.wi

/-- Reading a calibration register: StaleCalibrationError when it holds no value (10_state.md R27,
60_exceptions.md R223). -/
def withCal {w : Nat} (s : State) (r : Option (BitVec w)) (k : BitVec w → Result) : Result :=
  match s.calReg r with
  | none => raise .staleCalibration s
  | some v => k v

/-- The range policy of a pack: CodecRangeError only when the value is out of range and `ctl.strict` is 1
(40_field_codec.md R122, 60_exceptions.md R227). -/
def checkRange (s : State) (sgn : Bit) (width : Nat) (k : Int → Result) : Result :=
  if inRange sgn width (packValue sgn s.inp.vi) = false ∧ s.strict = 1#1 then raise (.codecRange width) s
  else k (packValue sgn s.inp.vi)

/-- UNPACK from its TransportError test onward (40_field_codec.md R124, R128). -/
def unpackFrom (W : RegWidth) (sgn : Bit) (width off : Nat) (s : State) : Result :=
  consumeWi s fun wi => complete { vo := some (unpackValue W sgn width off wi) } s

/-- PACK from its TransportError test onward (40_field_codec.md R125, R129). -/
def packInto (W : RegWidth) (sgn : Bit) (width off : Nat) (s : State) : Result :=
  consumeWi s fun wi => checkRange s sgn width fun v => complete { wo := some (packWord W width off wi v) } s

/-- The command executes on a register word whose descriptor is in the command word (R124, R125). -/
def withDescriptor (rw : BitVec 2) (width off : BitVec 6) (s : State) (k : RegWidth → Result) : Result :=
  match descWidth rw width off with
  | none => raise .badDescriptor s
  | some W => k W

/-- The command executes on a register word whose descriptor is in the Register Map (R128, R129). -/
def withMapField (addr : RegAddr) (idx : BitVec 4) (s : State) (k : RegWidth → FieldDesc → Result) : Result :=
  match mapField addr idx with
  | none => raise (.badAddress addr) s
  | some (W, d) => k W d

/-- The command executes only at a threshold address (44_diagnostic.md R204, R205). -/
def withThreshold (addr : RegAddr) (s : State) (k : Result) : Result :=
  if isThreshold addr then k else raise (.badAddress addr) s

/-- The reset step: every context register takes its reset value, no command executes, no output port holds a
value (70_reset_and_hazards.md R250); the device is untouched (R251). -/
def State.blockReset (s : State) : State :=
  { s with strict := Config.strictReset, calValid := 0#1, shuntCal := none, tempco := none, curLsb := none,
           pwrLsb := none, out := {} }

/-- The command on the `cmd` port, decoded (30_encoding.md R101). -/
def fetch (s : State) : Decoded := decode s.inp.cmd

/-- The same state with a command word on `cmd` and `rst` low, so that the next step executes it. -/
def State.presentWord (s : State) (c : CmdWord) : State := { s with inp := { s.inp with rst := 0#1, cmd := c } }

end Sys2Proof.Machine
end

