-- ==== Sys2Proof/Machine/Calibration.lean ====
section
/-! DEFINITION. Family 2, the calibration context and control (42_calibration_context.md). -/

namespace Sys2Proof.Machine

/-- SETCAL (R161): all five writes in one step; `xerr` is ignored. -/
def execSetcal (s : State) : Result := complete {} (s.loadCal s.inp.ki)

/-- CLRCAL (R162). -/
def execClrcal (s : State) : Result := complete {} s.dropCal

/-- SETCTL (R163). -/
def execSetctl (b : Bit) (s : State) : Result := complete {} (s.setStrict b)

/-- ENCCAL (R164): the 15-bit value under a zero bit 15; StaleCalibrationError. -/
def execEnccal (s : State) : Result :=
  withCal s s.shuntCal fun v => complete { wo := some (zext40 (0#1 ++ v)) } s

/-- ENCTCO (R165): the 14-bit value under zero bits 15:14; StaleCalibrationError. -/
def execEnctco (s : State) : Result :=
  withCal s s.tempco fun v => complete { wo := some (zext40 (0#2 ++ v)) } s

/-- RDCTX (R166). A selector above 4 is found at decode (30_encoding.md R98); the term itself raises the same
IllegalCommand (log 15). -/
def execRdctx (sel : BitVec 3) (s : State) : Result :=
  if sel = 0#3 then withCal s s.shuntCal fun v => complete { vo := some (zext80 v) } s
  else if sel = 1#3 then withCal s s.tempco fun v => complete { vo := some (zext80 v) } s
  else if sel = 2#3 then withCal s s.curLsb fun v => complete { vo := some (zext80 v) } s
  else if sel = 3#3 then withCal s s.pwrLsb fun v => complete { vo := some (zext80 v) } s
  else if sel = 4#3 then complete { vo := some (zext80 s.statusBits) } s
  else raise (.illegalCommand 0x15#6) s

end Sys2Proof.Machine
end

