-- ==== Sys2Proof/Machine/Configuration.lean ====
section
/-! DEFINITION. Family 1, the Configuration Model and the selectors (41_configuration.md). -/

namespace Sys2Proof.Machine

/-- The `config` word of a Configuration; reserved bits 3:0 are 0 (R141). -/
def configWord (c : ConfigIn) : BitVec 16 :=
  c.rst ++ c.rstacc ++ c.convdly ++ c.tempcomp ++ c.adcrange ++ 0#4

/-- The `adc_config` word of a Configuration (R142). -/
def adcConfigWord (c : ConfigIn) : BitVec 16 := c.mode ++ c.vbusct ++ c.vshct ++ c.vtct ++ c.avg

/-- The Configuration part a `config` word decodes to; the two pulses are never reported (R143, R144). -/
def configFields (w : BitVec 16) : ConfigOut :=
  { rst := some 0#1, rstacc := some 0#1, convdly := some (fget w 6 8), tempcomp := some (bitAt w 5),
    adcrange := some (bitAt w 4) }

/-- The Configuration part an `adc_config` word decodes to (R145). -/
def adcConfigFields (w : BitVec 16) : ConfigOut :=
  { mode := some (fget w 12 4), vbusct := some (fget w 9 3), vshct := some (fget w 6 3),
    vtct := some (fget w 3 3), avg := some (fget w 0 3) }

/-- The ADC mux enables of a mode code (R147). -/
def muxEnables (m : BitVec 4) : MuxOut :=
  { cont := some (bitAt m 3), temp := some (bitAt m 2), shunt := some (bitAt m 1), bus := some (bitAt m 0),
    shutdown := some (if fget m 0 3 = 0#3 then 1#1 else 0#1) }

/-- ENCCFG (R141): reads no `wi`, never faults, leaves `cal.valid` alone even for a reset request. -/
def execEnccfg (s : State) : Result := complete { wo := some (zext40 (configWord s.inp.ci)) } s

/-- ENCADC (R142). -/
def execEncadc (s : State) : Result := complete { wo := some (zext40 (adcConfigWord s.inp.ci)) } s

/-- DECCFG (R144): TransportError. -/
def execDeccfg (s : State) : Result :=
  consumeWi s fun wi => complete { co := configFields (regPart 16 wi) } s

/-- DECADC (R145): TransportError. -/
def execDecadc (s : State) : Result :=
  consumeWi s fun wi => complete { co := adcConfigFields (regPart 16 wi) } s

/-- MUXSEL (R147). -/
def execMuxsel (m : BitVec 4) (s : State) : Result := complete { mo := muxEnables m } s

/-- CTSEL (R149). -/
def execCtsel (c : BitVec 3) (s : State) : Result := complete { vo := some (tc80 (ctMicros c)) } s

/-- AVGSEL (R150). -/
def execAvgsel (a : BitVec 3) (s : State) : Result := complete { vo := some (tc80 (avgCount a)) } s

/-- RNGSEL (R148). -/
def execRngsel (r : Bit) (s : State) : Result := complete { vo := some (tc80 (vshMult r)) } s

end Sys2Proof.Machine
end

