-- ==== Sys2Proof/Machine/Diagnostic.lean ====
section
/-! DEFINITION. Family 4, diagnostic flags, alert configuration and thresholds (44_diagnostic.md). -/

namespace Sys2Proof.Machine

/-- The flags of a `diagnostic_flags` word: a direct test of each bit; bit 8 is ignored (R201). -/
def flagPorts (w : BitVec 16) : FlagsOut :=
  { alertLatch := some (bitAt w 15), convReadyOnAlert := some (bitAt w 14),
    assertOnAverage := some (bitAt w 13), alertPolarity := some (bitAt w 12),
    energyOverflow := some (bitAt w 11), chargeOverflow := some (bitAt w 10),
    mathOverflow := some (bitAt w 9), tempOverLimit := some (bitAt w 7),
    shuntOverLimit := some (bitAt w 6), shuntUnderLimit := some (bitAt w 5),
    busOverLimit := some (bitAt w 4), busUnderLimit := some (bitAt w 3),
    powerOverLimit := some (bitAt w 2), conversionComplete := some (bitAt w 1),
    checksumError := some (bitAt w 0) }

/-- The alert configuration word: the four booleans over twelve zeros (R202). -/
def alertWord (b : BitVec 4) : BitVec 16 := b ++ 0#12

/-- DECFLG (R201): TransportError. -/
def execDecflg (s : State) : Result := consumeWi s fun wi => complete { fo := flagPorts (regPart 16 wi) } s

/-- ENCALRT (R202). -/
def execEncalrt (b : BitVec 4) (s : State) : Result := complete { wo := some (zext40 (alertWord b)) } s

/-- MASKALRT (R203): TransportError. -/
def execMaskalrt (s : State) : Result :=
  consumeWi s fun wi => complete { wo := some (zext40 (regPart 16 wi &&& diagCfgMask)) } s

/-- ENCTHR (R204): BadAddress, CodecRangeError; reads no `wi`. -/
def execEncthr (addr : RegAddr) (s : State) : Result :=
  withThreshold addr s (checkRange s 0#1 16 fun v => complete { wo := some (zext40 (truncTo 16 v)) } s)

/-- DECTHR (R205): BadAddress, TransportError. -/
def execDecthr (addr : RegAddr) (s : State) : Result :=
  withThreshold addr s (consumeWi s fun wi => complete { vo := some (zext80 (regPart 16 wi)) } s)

end Sys2Proof.Machine
end

