-- ==== Sys2Proof/Machine/FieldCodec.lean ====
section
/-! DEFINITION. Family 0, the field codec and the Register Map lookup (40_field_codec.md). -/

namespace Sys2Proof.Machine

/-- NOP (R120). -/
def execNop (s : State) : Result := complete {} s

/-- UNPACK (R124): BadDescriptor, then TransportError. -/
def execUnpack (rw : BitVec 2) (sgn : Bit) (width off : BitVec 6) (s : State) : Result :=
  withDescriptor rw width off s fun W => unpackFrom W sgn width.toNat off.toNat s

/-- PACK (R125): BadDescriptor, TransportError, CodecRangeError. -/
def execPack (rw : BitVec 2) (sgn : Bit) (width off : BitVec 6) (s : State) : Result :=
  withDescriptor rw width off s fun W => packInto W sgn width.toNat off.toNat s

/-- The `do.*` ports RMAP drives (R127). -/
def rmapOutputs (addr : RegAddr) (idx : BitVec 4) : MapOut :=
  match rmapLookup addr with
  | none => { valid := some 0#1 }
  | some r =>
    match r.fields[idx.toNat]? with
    | none => { valid := some 0#1, rw := some r.rw.code, nfields := some (BitVec.ofNat 4 r.nfields) }
    | some d => { valid := some 1#1, rw := some r.rw.code, nfields := some (BitVec.ofNat 4 r.nfields),
                  off := some d.off, width := some d.width, sgn := some d.sgn }

/-- RMAP (R127): never faults. -/
def execRmap (addr : RegAddr) (idx : BitVec 4) (s : State) : Result :=
  complete { dout := rmapOutputs addr idx } s

/-- UNPACKR (R128): BadAddress, then as UNPACK. -/
def execUnpackr (addr : RegAddr) (idx : BitVec 4) (s : State) : Result :=
  withMapField addr idx s fun W d => unpackFrom W d.sgn d.width.toNat d.off.toNat s

/-- PACKR (R129): BadAddress, then as PACK. -/
def execPackr (addr : RegAddr) (idx : BitVec 4) (s : State) : Result :=
  withMapField addr idx s fun W d => packInto W d.sgn d.width.toNat d.off.toNat s

end Sys2Proof.Machine
end

