-- ==== Sys2Proof/Machine/Measurement.lean ====
section
/-! DEFINITION. Family 3, the measurement scaling pipeline (43_measurement.md): unpack the raw field, multiply
by the scale, deliver the exact product. -/

namespace Sys2Proof.Machine

/-- The 20-bit field of a 24-bit register word at `FRAC_OFF` (10_state.md R35, R36, R38). -/
def field20 (wi : RegWord) : BitVec 20 := fget (regPart 24 wi) Config.fracOff 20

/-- DECVSH (R181): signed, times `VSH_MULT[r]`, unit 2^-7 microvolt. The range is the operand. -/
def execDecvsh (r : Bit) (s : State) : Result :=
  consumeWi s fun wi => complete { vo := some (scaled 1#1 (field20 wi) (vshMult r)) } s

/-- DECVBUS (R182): unsigned, times `VBUS_MULT`, unit 2^-7 millivolt. -/
def execDecvbus (s : State) : Result :=
  consumeWi s fun wi => complete { vo := some (scaled 0#1 (field20 wi) Config.vbusMult) } s

/-- DECTEMP (R183): signed 16 bits, times `TEMP_MULT`, unit 2^-5 centi-degree Celsius. -/
def execDectemp (s : State) : Result :=
  consumeWi s fun wi => complete { vo := some (scaled 1#1 (regPart 16 wi) Config.tempMult) } s

/-- DECCUR (R184): signed, times `cal.cur_lsb`, unit 2^-16 microampere. -/
def execDeccur (s : State) : Result :=
  consumeWi s fun wi => withCal s s.curLsb fun k =>
    complete { vo := some (scaled 1#1 (field20 wi) k.toNat) } s

/-- DECPWR (R185): unsigned 24 bits, times `cal.pwr_lsb`, unit 2^-16 microwatt. -/
def execDecpwr (s : State) : Result :=
  consumeWi s fun wi => withCal s s.pwrLsb fun k =>
    complete { vo := some (scaled 0#1 (regPart 24 wi) k.toNat) } s

/-- DECENG (R186): unsigned 40 bits, times `ENERGY_MULT * cal.pwr_lsb`, unit 2^-16 microjoule. -/
def execDeceng (s : State) : Result :=
  consumeWi s fun wi => withCal s s.pwrLsb fun k =>
    complete { vo := some (scaled 0#1 (regPart 40 wi) (Config.energyMult * k.toNat)) } s

/-- DECCHG (R187): signed 40 bits, times `CHARGE_MULT * cal.cur_lsb`, unit 2^-16 microcoulomb. -/
def execDecchg (s : State) : Result :=
  consumeWi s fun wi => withCal s s.curLsb fun k =>
    complete { vo := some (scaled 1#1 (regPart 40 wi) (Config.chargeMult * k.toNat)) } s

end Sys2Proof.Machine
end

