-- ==== Sys2Proof/Machine/Dispatch.lean ====
section
/-! DEFINITION. The dispatch of a command to its meaning, one arm per row of spec/opcode_table.json. -/

namespace Sys2Proof.Machine

def exec (i : Instr) (s : State) : Host.Outcome State Fault Refusal :=
  match i with
  | .nop => Sys2Proof.Machine.execNop s
  | .unpack rw sgn width off => Sys2Proof.Machine.execUnpack rw sgn width off s
  | .pack rw sgn width off => Sys2Proof.Machine.execPack rw sgn width off s
  | .rmap addr idx => Sys2Proof.Machine.execRmap addr idx s
  | .unpackr addr idx => Sys2Proof.Machine.execUnpackr addr idx s
  | .packr addr idx => Sys2Proof.Machine.execPackr addr idx s
  | .enccfg => Sys2Proof.Machine.execEnccfg s
  | .encadc => Sys2Proof.Machine.execEncadc s
  | .deccfg => Sys2Proof.Machine.execDeccfg s
  | .decadc => Sys2Proof.Machine.execDecadc s
  | .muxsel m => Sys2Proof.Machine.execMuxsel m s
  | .ctsel c => Sys2Proof.Machine.execCtsel c s
  | .avgsel a => Sys2Proof.Machine.execAvgsel a s
  | .rngsel r => Sys2Proof.Machine.execRngsel r s
  | .setcal => Sys2Proof.Machine.execSetcal s
  | .clrcal => Sys2Proof.Machine.execClrcal s
  | .setctl b => Sys2Proof.Machine.execSetctl b s
  | .enccal => Sys2Proof.Machine.execEnccal s
  | .enctco => Sys2Proof.Machine.execEnctco s
  | .rdctx sel => Sys2Proof.Machine.execRdctx sel s
  | .decvsh r => Sys2Proof.Machine.execDecvsh r s
  | .decvbus => Sys2Proof.Machine.execDecvbus s
  | .dectemp => Sys2Proof.Machine.execDectemp s
  | .deccur => Sys2Proof.Machine.execDeccur s
  | .decpwr => Sys2Proof.Machine.execDecpwr s
  | .deceng => Sys2Proof.Machine.execDeceng s
  | .decchg => Sys2Proof.Machine.execDecchg s
  | .decflg => Sys2Proof.Machine.execDecflg s
  | .encalrt b => Sys2Proof.Machine.execEncalrt b s
  | .maskalrt => Sys2Proof.Machine.execMaskalrt s
  | .encthr addr => Sys2Proof.Machine.execEncthr addr s
  | .decthr addr => Sys2Proof.Machine.execDecthr addr s

end Sys2Proof.Machine
end

