-- ==== Sys2Proof/Machine/Step.lean ====
section
/-! DEFINITION. One step of the block (10_state.md R24, 70_reset_and_hazards.md R250): sample the ports; a reset
step when `rst` is 1; otherwise decode and execute the command, or raise IllegalCommand. -/

namespace Sys2Proof.Machine

/-- The next state of the block; it never stops (70_reset_and_hazards.md R265). -/
def step (s : State) : Host.Outcome State Fault Refusal :=
  if s.inp.rst = 1#1 then .next s.blockReset
  else
    match fetch s with
    | .instr i => exec i s
    | .illegal _ op => raise (.illegalCommand op) s

/-- The state with an instruction's word presented on the command port, so that the next step executes it. There
is no program memory (10_state.md R21): the host presents each command (log 4). -/
def State.withFetchWord (s : State) (nbits w : Nat) : State := s.presentWord (tableWord nbits w)

end Sys2Proof.Machine
end

