-- ==== Sys2Proof/Machine/Bus.lean ====
section
/-! DEFINITION. The device register space and the host's two bus primitives on it (20_memory.md): byte order,
access width, what a read may return. No command of the block performs either (R62). -/

namespace Sys2Proof.Machine

/-- `word_of_bytes`: the first byte on the bus is the most significant (20_memory.md R64). -/
def wordOfBytes : List Byte → RegWord
  | [] => 0#40
  | b :: bs => b.setWidth 40 <<< (8 * bs.length) ||| wordOfBytes bs

/-- `bytes_of_word`: the `n` low bytes of a word, most significant first (20_memory.md R64). -/
def bytesOfWord (w : RegWord) : Nat → List Byte
  | 0 => []
  | n + 1 => (w >>> (8 * n)).setWidth 8 :: bytesOfWord w n

/-- The key of byte `k` on the bus of a register (log 7). -/
def busKey (addr : RegAddr) (k : Nat) : Nat := 8 * addr.toNat + k

/-- The byte listed under a key, if one is. -/
def Memory.get : Memory → Nat → Option Byte
  | [], _ => none
  | (a, b) :: m, key => if a = key then some b else Memory.get m key

/-- List a byte under a key, keeping the keys rising. -/
def Memory.set : Memory → Nat → Byte → Memory
  | [], key, v => [(key, v)]
  | (a, b) :: m, key, v =>
    if key < a then (key, v) :: (a, b) :: m
    else if key = a then (key, v) :: m
    else (a, b) :: Memory.set m key v

/-- List bytes under consecutive keys. -/
def Memory.setBytes : Memory → Nat → List Byte → Memory
  | m, _, [] => m
  | m, key, b :: bs => Memory.setBytes (Memory.set m key b) (key + 1) bs

/-- The `n` bytes from a key on; none unless all are listed. -/
def Memory.getBytes (m : Memory) (key : Nat) : Nat → Option (List Byte)
  | 0 => some []
  | n + 1 =>
    match Memory.get m key, Memory.getBytes m (key + 1) n with
    | some b, some bs => some (b :: bs)
    | _, _ => none

/-- Unlist every byte of one register. -/
def Memory.forget (m : Memory) (addr : RegAddr) : Memory := m.filter (fun c => c.1 / 8 != addr.toNat)

/-- The bits of a register that only the host's writes change, its reserved bits among them (20_memory.md R77). -/
def readBackMask (r : RegRecord) : RegWord :=
  match r.access with
  | .readOnly => 0#40
  | .mixed => zext40 diagCfgMask
  | .readWrite => if r.addr = 0x00#8 then 0x3FFF#40 else 0xFFFF#40

/-- The bits of a register that read as the host last wrote them, and from read to read the same before any write
(20_memory.md R77). A reserved bit reads as any value whatever was written to it (93 U3; log 10). Of
`diagnostic_flags` they are bits 15:12, also after a write with a 1 in a status bit (DESIGN CHOICE, log 17). -/
def keptBits (r : RegRecord) : RegWord := readBackMask r &&& ~~~r.reservedMask

/-- Byte `k` on the bus of a register's kept bits. -/
def keptByte (r : RegRecord) (k : Nat) : Byte := (bytesOfWord (keptBits r) r.rw.bytes).getD k 0#8

/-- The cell is a byte of a mapped register that the host can write, with a 1 in kept bits only (20_memory.md R60,
R63, R77). -/
def isHeldCell (c : Host.Cell) : Bool :=
  match rmapLookup (BitVec.ofNat 8 (c.1 / 8)) with
  | none => false
  | some r => decide (c.1 / 8 < 256 ∧ c.1 % 8 < r.rw.bytes ∧ r.access ≠ .readOnly ∧
      c.2 &&& ~~~keptByte r (c.1 % 8) = 0#8)

/-- The keys rise strictly. -/
def Memory.rising : Memory → Bool
  | [] => true
  | [_] => true
  | (a, _) :: (b, y) :: m => decide (a < b) && Memory.rising ((b, y) :: m)

/-- The canonical form: rising keys, each a byte of a register the host can write, zeros in the bits the device
decides. An unlisted byte reads as a free value (log 8), so no listed byte equals it. -/
def Memory.wf (m : Memory) : Bool := Memory.rising m && m.all isHeldCell

/-- What the device supplies at this read in the bits not yet known (20_memory.md R77): a free value, or one of the
two constants the spec does not give (10_state.md R44, R45). -/
def deviceBits (s : State) (r : RegRecord) : RegWord :=
  if r.addr = 0x3E#8 then zext40 Config.manufacturerId
  else if r.addr = 0x3F#8 then zext40 Config.deviceId
  else zext40 (regPart r.rw.bits (Config.deviceDraw s.draws))

/-- The word the device returns at this read (20_memory.md R77): the kept bits as known, every other bit a fresh
free value; of a register not yet known, all bits a free value. -/
def deviceWord (s : State) (r : RegRecord) : RegWord :=
  match Memory.getBytes s.dev (busKey r.addr 0) r.rw.bytes with
  | none => deviceBits s r
  | some bs =>
    (wordOfBytes bs &&& keptBits r) ||| (deviceBits s r &&& ~~~keptBits r)

/-- A register's kept bits are known from here on to be those of this word. -/
def State.holdWord (s : State) (r : RegRecord) (w : RegWord) : State :=
  s.setDev (Memory.setBytes s.dev (busKey r.addr 0) (bytesOfWord (w &&& keptBits r) r.rw.bytes))

/-- What a read makes known: only host writes change the kept bits, so the next read finds them as this one did
(20_memory.md R77, 93 U7; log 8). Nothing is kept of a register the device decides, nor anew of a known one. -/
def State.learnWord (s : State) (r : RegRecord) (w : RegWord) : State :=
  if r.access = .readOnly ∨ (Memory.getBytes s.dev (busKey r.addr 0) r.rw.bytes).isSome = true then s
  else s.holdWord r w

/-- An access has a meaning only at a mapped address and at the register's width (20_memory.md R63; log 12). -/
def withRegister (addr : RegAddr) (n : Nat) (k : RegRecord → Result) : Result :=
  match rmapLookup addr with
  | none => .fault (.unmappedAddress addr)
  | some r => if n = r.rw.bytes then k r else .refused (.accessSize addr n)

/-- The host puts a word it read on `wi`, qualified as good (20_memory.md R62, 70 R261). -/
def State.presentRead (s : State) (w : RegWord) : State :=
  { s with inp := { s.inp with wi := w, xerr := 0#1 } }

/-- The host marks `wi` as the product of a failed read; it yields no word (20_memory.md R76). -/
def State.presentFailure (s : State) (code : BitVec 8) : State :=
  { s with inp := { s.inp with xerr := 1#1, xinfo := code } }

/-- `MemRead(addr, n)` by the host, its word put on `wi` (20_memory.md R62, R64); `failure` is the
collaborator's code when the transaction fails (R76). -/
def busRead (addr : RegAddr) (n : Nat) (failure : Option (BitVec 8)) (s : State) : Result :=
  withRegister addr n fun r =>
    match failure with
    | some code => .next (s.presentFailure code)
    | none => .next (((s.learnWord r (deviceWord s r)).presentRead
        (wordOfBytes (bytesOfWord (deviceWord s r) n))).countDraw)

/-- A write of this word is a device reset pulse (10_state.md R31). -/
def isResetPulse (addr : RegAddr) (w : RegWord) : Bool := addr == 0x00#8 && bitAt w 15 == 1#1

/-- `MemWrite(addr, n, v)` by the host of the low `n` bytes of `w` (20_memory.md R62, R64). After a reset pulse
nothing is known of the device (log 9), after a failed write nothing of that register (log 11). DESIGN CHOICE, log
17: a write of `diagnostic_flags` with a 1 in a status bit, the hazard of 70 R259 to which 93 U16 gives no device
reaction, is let through; bits 15:12 are held as written and the status bits read as free values. -/
def busWrite (addr : RegAddr) (n : Nat) (w : RegWord) (failed : Bool) (s : State) : Result :=
  withRegister addr n fun r =>
    if r.access = .readOnly then .refused (.readOnlyRegister addr)
    else if isResetPulse addr w then .next (s.setDev [])
    else if failed then .next (s.setDev (Memory.forget s.dev addr))
    else .next (s.holdWord r w)

end Sys2Proof.Machine
end

