-- ==== Sys2Proof/Machine/Run.lean ====
section
/-! DEFINITION. A run (70_reset_and_hazards.md R265): a finite list of steps, reset steps and commands with their
port values, interleaved with the host's bus transactions. -/

namespace Sys2Proof.Machine

/-- One entry of a run. -/
inductive HostStep where
  /-- the host drives all input ports and the block makes one step (R250, R265) -/
  | issue (p : Inputs)
  /-- the same, but `wi`, `xerr` and `xinfo` stay as the last read left them (20_memory.md R62, R76) -/
  | issueHeld (p : Inputs)
  /-- `MemRead`, failed with a code or not -/
  | read (addr : RegAddr) (n : Nat) (failure : Option (BitVec 8))
  /-- `MemWrite` of a word of the host's own -/
  | write (addr : RegAddr) (n : Nat) (w : RegWord) (failed : Bool)
  /-- `MemWrite` of the word the latest command put on `wo`; without one the host skips it (log 16) -/
  | writeOut (addr : RegAddr) (n : Nat) (failed : Bool)
deriving DecidableEq, Repr

/-- The block makes a step. -/
def HostStep.isBlock : HostStep → Bool
  | .issue _ | .issueHeld _ => true
  | .read .. | .write .. | .writeOut .. => false

/-- The ports the host drives when it keeps what its last read left on `wi`, `xerr` and `xinfo`. -/
def heldPorts (s : State) (p : Inputs) : Inputs := { p with wi := s.inp.wi, xerr := s.inp.xerr, xinfo := s.inp.xinfo }

/-- One entry of a run, performed. -/
def hostStep (h : HostStep) (s : State) : Result :=
  match h with
  | .issue p => step (s.present p)
  | .issueHeld p => step (s.present (heldPorts s p))
  | .read addr n failure => busRead addr n failure s
  | .write addr n w failed => busWrite addr n w failed s
  | .writeOut addr n failed =>
    match s.out.wo with
    | none => .next s
    | some w => busWrite addr n w failed s

/-- A run: its end state and the list of outputs the block produced (R265). -/
def run : List HostStep → State → Host.Outcome (State × List Outputs) Fault Refusal
  | [], s => .next (s, [])
  | h :: hs, s =>
    match hostStep h s with
    | .fault r => .fault r
    | .refused r => .refused r
    | .next t =>
      match run hs t with
      | .fault r => .fault r
      | .refused r => .refused r
      | .next (e, outs) => .next (e, if h.isBlock then t.out :: outs else outs)

end Sys2Proof.Machine
end

