-- ==== Sys2Proof/Safety.lean ====
section
/-! DEFINITION. What counts as a good state and a safe run, in the terms claims use. -/

namespace Sys2Proof.Machine

/-- The four calibration registers are either all present or all absent, with `cal.valid` (10_state.md R27). -/
def State.calCoherent (s : State) : Bool :=
  if s.calValid = 1#1 then s.shuntCal.isSome && s.tempco.isSome && s.curLsb.isSome && s.pwrLsb.isSome
  else s.shuntCal.isNone && s.tempco.isNone && s.curLsb.isNone && s.pwrLsb.isNone

/-- The outputs of a step that completed: `flt` is 0 and `finfo` holds no value (60_exceptions.md R220). -/
def Outputs.completed (o : Outputs) : Prop := o.flt = some 0#4 ∧ o.finfo = none

/-- The outputs of a step that faulted: `flt` and `finfo` of one of the six faults, nothing else
(60_exceptions.md R226). -/
def Outputs.faulted (o : Outputs) : Prop := ∃ f : CmdFault, o = f.outputs

/-- What the output ports of any step look like: a reset step's, a completed command's or a fault's. -/
def Outputs.wellDriven (o : Outputs) : Prop := o = {} ∨ o.completed ∨ o.faulted

/-- The invariant of the machine. -/
structure State.Inv (s : State) : Prop where
  cal : s.calCoherent = true
  out : s.out.wellDriven
  dev : Memory.wf s.dev = true

/-- The block's own state: the six context registers, all a command can read or write besides its ports
(10_state.md R20, R25). -/
structure Context where
  strict : Bit
  calValid : Bit
  shuntCal : Option (BitVec 15)
  tempco : Option (BitVec 14)
  curLsb : Option (BitVec 32)
  pwrLsb : Option (BitVec 32)
deriving DecidableEq, Repr

/-- The context registers of a state. -/
def State.context (s : State) : Context := ⟨s.strict, s.calValid, s.shuntCal, s.tempco, s.curLsb, s.pwrLsb⟩

/-- The command completes on this state: a next state whose outputs show no fault. -/
def Completes (i : Instr) (s : State) : Prop := ∃ t, exec i s = .next t ∧ t.out.completed

/-- The command faults on this state with exactly this fault, and nothing but the output ports changes
(60_exceptions.md R226). -/
def FaultsWith (f : CmdFault) (i : Instr) (s : State) : Prop := exec i s = .next { s with out := f.outputs }

/-- A run that no bus operation stops. -/
def SafeRun (hs : List HostStep) (s : State) : Prop := ∃ e outs, run hs s = .next (e, outs)

/-- `RW` of a width code that is 0, 1 or 2, as a plain number (00_scope.md R9). -/
def regBits (rw : BitVec 2) : Nat := if rw = 0#2 then 16 else if rw = 1#2 then 24 else 40

/-- The legal field descriptors, as the spec's inequalities (40_field_codec.md R121). -/
def LegalDesc (rw : BitVec 2) (width off : Nat) : Prop :=
  rw ≠ 3#2 ∧ 1 ≤ width ∧ width ≤ 40 ∧ off + width ≤ regBits rw

/-- The field of a register word as a number: `(word >> off) & (2^width - 1)` (00_scope.md R9). -/
def fieldNat (W off width : Nat) (wi : RegWord) : Nat := wi.toNat % 2 ^ W / 2 ^ off % 2 ^ width

/-- The integer a field's bits stand for: `n - 2^width` when signed with the top bit set (00_scope.md R8). -/
def valueOf (sgn : Bit) (width n : Nat) : Int :=
  if sgn = 1#1 ∧ 2 ^ (width - 1) ≤ n then (n : Int) - 2 ^ width else n

/-- The value on `vi` is representable in the field (40_field_codec.md R122). -/
abbrev InRange (sgn : Bit) (width : Nat) (vi : Value) : Prop :=
  (sgn = 1#1 → -(2 ^ (width - 1) : Int) ≤ vi.toInt ∧ vi.toInt < 2 ^ (width - 1)) ∧
  (sgn = 0#1 → vi.toNat < 2 ^ width)

/-- `w` is the 40-bit port's form of the `W`-bit word `wi` with the field replaced by the low bits of `vi`, every
other bit kept, zeros above the register (40_field_codec.md R125). -/
def Packed (W off width : Nat) (wi : RegWord) (vi : Value) (w : RegWord) : Prop :=
  ∀ i < 40, w.getLsbD i =
    if off ≤ i ∧ i < off + width then vi.getLsbD (i - off) else decide (i < W) && wi.getLsbD i

/-- One line of the spec's Register Map in plain numbers; each field is its offset, width and signedness
(10_state.md R47). -/
structure SpecRow where
  addr : Nat
  code : Nat
  bits : Nat
  fields : List (Nat × Nat × Nat)
deriving DecidableEq, Repr

/-- The Register Map as the spec's table (10_state.md R31 to R47). -/
def specMap : List SpecRow :=
  [ ⟨0x00, 0, 16, [(15, 1, 0), (14, 1, 0), (6, 8, 0), (5, 1, 0), (4, 1, 0)]⟩,
    ⟨0x01, 0, 16, [(12, 4, 0), (9, 3, 0), (6, 3, 0), (3, 3, 0), (0, 3, 0)]⟩,
    ⟨0x02, 0, 16, [(0, 15, 0)]⟩, ⟨0x03, 0, 16, [(0, 14, 0)]⟩, ⟨0x04, 1, 24, [(4, 20, 1)]⟩,
    ⟨0x05, 1, 24, [(4, 20, 0)]⟩, ⟨0x06, 0, 16, [(0, 16, 1)]⟩, ⟨0x07, 1, 24, [(4, 20, 1)]⟩,
    ⟨0x08, 1, 24, [(0, 24, 0)]⟩, ⟨0x09, 2, 40, [(0, 40, 0)]⟩, ⟨0x0A, 2, 40, [(0, 40, 1)]⟩,
    ⟨0x0B, 0, 16, [(15, 1, 0), (14, 1, 0), (13, 1, 0), (12, 1, 0), (11, 1, 0), (10, 1, 0), (9, 1, 0), (7, 1, 0),
      (6, 1, 0), (5, 1, 0), (4, 1, 0), (3, 1, 0), (2, 1, 0), (1, 1, 0), (0, 1, 0)]⟩,
    ⟨0x0C, 0, 16, [(0, 16, 0)]⟩, ⟨0x0D, 0, 16, [(0, 16, 0)]⟩, ⟨0x0E, 0, 16, [(0, 16, 0)]⟩,
    ⟨0x0F, 0, 16, [(0, 16, 0)]⟩, ⟨0x10, 0, 16, [(0, 16, 0)]⟩, ⟨0x11, 0, 16, [(0, 16, 0)]⟩,
    ⟨0x3E, 0, 16, [(0, 16, 0)]⟩, ⟨0x3F, 0, 16, [(0, 16, 0)]⟩ ]

/-- The row of an address in the spec's table. -/
def specRow (addr : RegAddr) : Option SpecRow := specMap.find? (fun e => e.addr == addr.toNat)

/-- A record of the map in the form of the spec's table. -/
def RegRecord.row (r : RegRecord) : SpecRow :=
  ⟨r.addr.toNat, r.rw.code.toNat, r.rw.bits, r.fields.map fun d => (d.off.toNat, d.width.toNat, d.sgn.toNat)⟩

/-- The commands that consume `wi` (60_exceptions.md R222). -/
def consumesWi : Instr → Bool
  | .unpack .. | .pack .. | .unpackr .. | .packr .. | .deccfg | .decadc => true
  | .decvsh _ | .decvbus | .dectemp | .deccur | .decpwr | .deceng | .decchg => true
  | .decflg | .maskalrt | .decthr _ => true
  | .nop | .rmap .. | .enccfg | .encadc | .muxsel _ | .ctsel _ | .avgsel _ | .rngsel _ => false
  | .setcal | .clrcal | .setctl _ | .enccal | .enctco | .rdctx _ | .encalrt _ | .encthr _ => false

/-- The commands that read a `cal.*` value register (60_exceptions.md R223). -/
def readsCal : Instr → Bool
  | .deccur | .decpwr | .deceng | .decchg | .enccal | .enctco => true
  | .rdctx sel => decide (sel.toNat ≤ 3)
  | .nop | .unpack .. | .pack .. | .rmap .. | .unpackr .. | .packr .. | .enccfg | .encadc => false
  | .deccfg | .decadc | .muxsel _ | .ctsel _ | .avgsel _ | .rngsel _ | .setcal | .clrcal => false
  | .setctl _ | .decvsh _ | .decvbus | .dectemp | .decflg | .encalrt _ | .maskalrt => false
  | .encthr _ | .decthr _ => false

/-- The fault of a command whose operands in the command word are bad (60_exceptions.md R224, R225). -/
def operandFault : Instr → Option CmdFault
  | .unpack rw _ width off | .pack rw _ width off =>
    if rw ≠ 3#2 ∧ 1 ≤ width.toNat ∧ width.toNat ≤ 40 ∧ off.toNat + width.toNat ≤ regBits rw then none
    else some .badDescriptor
  | .unpackr addr idx | .packr addr idx => if (mapField addr idx).isSome then none else some (.badAddress addr)
  | .encthr addr | .decthr addr =>
    if 0x0C ≤ addr.toNat ∧ addr.toNat ≤ 0x11 then none else some (.badAddress addr)
  | .nop | .rmap .. | .enccfg | .encadc | .deccfg | .decadc | .muxsel _ | .ctsel _ | .avgsel _ => none
  | .rngsel _ | .setcal | .clrcal | .setctl _ | .enccal | .enctco | .rdctx _ | .decvsh _ | .decvbus => none
  | .dectemp | .deccur | .decpwr | .deceng | .decchg | .decflg | .encalrt _ | .maskalrt => none

/-- The field a command packs into: its signedness and its width (60_exceptions.md R227). -/
def packField : Instr → Option (Bit × Nat)
  | .pack _ sgn width _ => some (sgn, width.toNat)
  | .packr addr idx => (mapField addr idx).map (fun e => (e.2.sgn, e.2.width.toNat))
  | .encthr _ => some (0#1, 16)
  | .nop | .unpack .. | .rmap .. | .unpackr .. | .enccfg | .encadc | .deccfg | .decadc => none
  | .muxsel _ | .ctsel _ | .avgsel _ | .rngsel _ | .setcal | .clrcal | .setctl _ | .enccal => none
  | .enctco | .rdctx _ | .decvsh _ | .decvbus | .dectemp | .deccur | .decpwr | .deceng => none
  | .decchg | .decflg | .encalrt _ | .maskalrt | .decthr _ => none

/-- The first fault that applies, in the order of 60_exceptions.md R228: the operands of the command word, the
qualifier of the data, the context, the data. -/
def firstFault (i : Instr) (s : State) : Option CmdFault :=
  match operandFault i with
  | some f => some f
  | none =>
    if consumesWi i = true ∧ s.inp.xerr = 1#1 then some (.transport s.inp.xinfo)
    else if readsCal i = true ∧ s.calValid = 0#1 then some .staleCalibration
    else
      match packField i with
      | none => none
      | some (sgn, width) =>
        if s.strict = 1#1 ∧ ¬InRange sgn width s.inp.vi then some (.codecRange width) else none

/-- The fault codes a command can raise, the table of 60_exceptions.md R229. -/
def raisable : Instr → List (BitVec 4)
  | .nop | .rmap .. | .enccfg | .encadc | .muxsel _ | .ctsel _ | .avgsel _ | .rngsel _ => []
  | .setcal | .clrcal | .setctl _ | .encalrt _ => []
  | .unpack .. => [5#4, 2#4]
  | .pack .. => [5#4, 2#4, 1#4]
  | .unpackr .. => [6#4, 2#4]
  | .packr .. => [6#4, 2#4, 1#4]
  | .deccfg | .decadc | .decvsh _ | .decvbus | .dectemp | .decflg | .maskalrt => [2#4]
  | .deccur | .decpwr | .deceng | .decchg => [2#4, 3#4]
  | .enccal | .enctco => [3#4]
  | .rdctx sel => if sel.toNat ≤ 3 then [3#4] else []
  | .encthr _ => [6#4, 1#4]
  | .decthr _ => [6#4, 2#4]

/-- The same state with other qualifiers and another word on `wi`. -/
def State.withTransport (s : State) (wi : RegWord) (xerr : Bit) (xinfo : BitVec 8) : State :=
  { s with inp := { s.inp with wi := wi, xerr := xerr, xinfo := xinfo } }

end Sys2Proof.Machine
end

