-- ==== Sys2Proof/Certificates/Slice0/Obligations.lean ====
section
/-! DEFINITION. The statements for the provers. Each docstring names the rule of spec/ it formalises. The next state of
a command is written out whole, `{ s with out := … }`, so each result statement is its command's frame too: the
six context registers, the input ports, the device's bytes and the draw counter are what they were, and an output
port that is not named holds no value (10_state.md R23). -/

open Sys2Proof Sys2Proof.Machine

/-! ### Encoding and decoding -/

/-- Every well-formed command, with every operand, is read back from its word (30_encoding.md R96, R101, R105). -/
def Obligations.DecodeReadsBackEveryCommand : Prop :=
  ∀ i : Instr, i.wellFormed = true → decode (encode i) = .instr i

/-- A word the decoder accepts is the word of the command it reads: no bit of it is free (30_encoding.md R96, R98). -/
def Obligations.AcceptedWordIsItsCommandsWord : Prop :=
  ∀ (c : CmdWord) (i : Instr), decode c = .instr i → i.wellFormed = true ∧ encode i = c

/-- A few words written out from the encoding tables decode to what they stand for (30_encoding.md R96, R103, R104). -/
def Obligations.WrittenWordsDecode : Prop :=
  decode 0x00000000#32 = .instr .nop ∧
  decode 0x05009404#32 = .instr (.unpack 1#2 1#1 20#6 4#6) ∧
  decode 0x0800040C#32 = .instr (.pack 0#2 0#1 4#6 12#6) ∧
  decode 0x14010000#32 = .instr (.packr 0x01#8 0#4) ∧
  decode 0x3000000B#32 = .instr (.muxsel 0xB#4) ∧
  decode 0x48000001#32 = .instr (.setctl 1#1) ∧
  decode 0x54000004#32 = .instr (.rdctx 4#3) ∧
  decode 0x60000001#32 = .instr (.decvsh 1#1) ∧
  decode 0x90110000#32 = .instr (.decthr 0x11#8) ∧
  decode 0x54000005#32 = .illegal .badSelector 0x15#6 ∧
  decode 0xFFFFFFFF#32 = .illegal .reservedOp 0x3F#6

/-- 30_encoding.md R97: exactly these `op` values select no command, and a word with one raises IllegalCommand. -/
def Obligations.ReservedOpcodesSelectNoCommand : Prop :=
  (∀ c : CmdWord,
    (∃ op, decode c = .illegal .reservedOp op) ↔
      c.toNat / 2 ^ 26 ∈ [0x06, 0x07, 0x16, 0x17, 0x1F] ∨ 0x25 ≤ c.toNat / 2 ^ 26) ∧
  (∀ s : State, s.inp.rst = 0#1 →
    s.inp.cmd.toNat / 2 ^ 26 ∈ [0x06, 0x07, 0x16, 0x17, 0x1F] ∨ 0x25 ≤ s.inp.cmd.toNat / 2 ^ 26 →
    step s = .next { s with out := { flt := some 4#4, finfo := some (BitVec.ofNat 8 (s.inp.cmd.toNat / 2 ^ 26)) } })

/-- 60_exceptions.md R221: a word that is no command's word raises IllegalCommand, `finfo` its `op` zero-extended. -/
def Obligations.NonCommandWordRaisesIllegalCommand : Prop :=
  ∀ s : State, s.inp.rst = 0#1 → (∀ i : Instr, i.wellFormed = true → encode i ≠ s.inp.cmd) →
    step s = .next { s with out := { flt := some 4#4, finfo := some (BitVec.ofNat 8 (s.inp.cmd.toNat / 2 ^ 26)) } }

/-! ### The step, reset, invariants -/

/-- 10_state.md R24: a step that is no reset step executes the command on `cmd`. -/
def Obligations.StepRunsTheCommandOnCmd : Prop :=
  ∀ (s : State) (i : Instr), s.inp.rst = 0#1 → decode s.inp.cmd = .instr i → step s = exec i s

/-- 70_reset_and_hazards.md R250: what a reset step does, whatever else is on the ports; a step that is none
executes the command on `cmd`. -/
def Obligations.ResetStepRestoresTheContext : Prop :=
  (∀ s : State, s.inp.rst = 1#1 →
    step s = .next { strict := 1#1, calValid := 0#1, shuntCal := none, tempco := none, curLsb := none, pwrLsb := none,
                     inp := s.inp, out := {}, dev := s.dev, draws := s.draws }) ∧
  (∀ (s : State) (i : Instr), s.inp.rst = 0#1 → decode s.inp.cmd = .instr i → step s = exec i s)

/-- 10_state.md R50: the reset values of the six context registers. -/
def Obligations.ResetValuesOfTheContext : Prop :=
  State.reset.strict = 1#1 ∧ State.reset.calValid = 0#1 ∧ State.reset.shuntCal = none ∧
  State.reset.tempco = none ∧ State.reset.curLsb = none ∧ State.reset.pwrLsb = none

/-- The invariant holds right after reset. -/
def Obligations.InvariantHoldsAtReset : Prop := State.reset.Inv

/-- Every step of the block keeps the invariant: the calibration registers are all present or all absent with
`cal.valid` (10_state.md R27), the outputs are a reset step's, a completed command's or one fault's (60_exceptions.md
R220, R226), the device's bytes keep their canonical form (the model's, log 7). -/
def Obligations.StepKeepsTheInvariant : Prop :=
  ∀ s t : State, s.Inv → step s = .next t → t.Inv

/-- Every run the bus does not stop keeps the invariant (70_reset_and_hazards.md R265). How the bus transactions act on
the state is the model's representation (logs 2, 7, 11). -/
def Obligations.RunKeepsTheInvariant : Prop :=
  ∀ (hs : List HostStep) (s e : State) (outs : List Outputs), s.Inv → run hs s = .next (e, outs) →
    e.Inv ∧ outs.length = (hs.filter HostStep.isBlock).length ∧ ∀ o ∈ outs, o.wellDriven

/-- 70_reset_and_hazards.md R265, "The block never halts": every step, from every state, has a next state (that a
command fault is one is the model's reading, log 1). -/
def Obligations.BlockNeverHalts : Prop := ∀ s : State, ∃ t, step s = .next t

/-! ### Whole-machine rules -/

/-- 10_state.md R25, R26, R28 and 20_memory.md R62: what no command touches, and who writes the two flags. -/
def Obligations.CommandsTouchNothingElse : Prop :=
  ∀ (i : Instr) (s t : State), exec i s = .next t →
    t.inp = s.inp ∧ t.draws = s.draws ∧ t.dev = s.dev ∧
    (∀ key, Memory.get t.dev key = Memory.get s.dev key) ∧
    (i ≠ .setcal → i ≠ .clrcal →
      t.calValid = s.calValid ∧ t.shuntCal = s.shuntCal ∧ t.tempco = s.tempco ∧
      t.curLsb = s.curLsb ∧ t.pwrLsb = s.pwrLsb) ∧
    ((∀ b, i ≠ .setctl b) → t.strict = s.strict)

/-- 60_exceptions.md R226: a faulting step drives `flt` and `finfo` and has no other effect. -/
def Obligations.FaultHasNoOtherEffect : Prop :=
  ∀ (s t : State) (c : BitVec 4), step s = .next t → t.out.flt = some c → c ≠ 0#4 →
    ∃ f : CmdFault, f.code = c ∧ t = { s with out := { flt := some c, finfo := some f.info } }

/-- 60_exceptions.md R220: the codes and the information of the six faults. -/
def Obligations.FaultCodesAndInformation : Prop :=
  (∀ w : Nat, 1 ≤ w → w ≤ 40 →
    ∃ info : BitVec 8, info.toNat = w ∧ (CmdFault.codecRange w).outputs = { flt := some 1#4, finfo := some info }) ∧
  (∀ x : BitVec 8, (CmdFault.transport x).outputs = { flt := some 2#4, finfo := some x }) ∧
  CmdFault.staleCalibration.outputs = { flt := some 3#4, finfo := some 0#8 } ∧
  (∀ op : BitVec 6, (CmdFault.illegalCommand op).outputs = { flt := some 4#4, finfo := some (0#2 ++ op) }) ∧
  CmdFault.badDescriptor.outputs = { flt := some 5#4, finfo := some 0#8 } ∧
  (∀ a : RegAddr, (CmdFault.badAddress a).outputs = { flt := some 6#4, finfo := some a })

/-- 60_exceptions.md R228: a word that is no command reports that and nothing else; a command reports the first
fault that applies, and completes when none does. The invariant of R27 rules out a calibration register that is
absent while `cal.valid` is 1. -/
def Obligations.FirstFaultWinsElseTheCommandCompletes : Prop :=
  (∀ (s : State) (why : Reject) (op : BitVec 6), s.inp.rst = 0#1 → decode s.inp.cmd = .illegal why op →
    step s = .next { s with out := (CmdFault.illegalCommand op).outputs }) ∧
  (∀ (i : Instr) (s : State), i.wellFormed = true → s.calCoherent = true →
    match firstFault i s with
    | some f => FaultsWith f i s
    | none => Completes i s)

/-- The table of 60_exceptions.md R229: which command can raise what. -/
def Obligations.CommandsRaiseOnlyTheirFaults : Prop :=
  ∀ (i : Instr) (s t : State) (c : BitVec 4), i.wellFormed = true → exec i s = .next t →
    t.out.flt = some c → c = 0#4 ∨ c ∈ raisable i

/-- 10_state.md R20, R28: results are a function of the command, its ports and the context registers alone. -/
def Obligations.ResultsDependOnPortsAndContextOnly : Prop :=
  ∀ (i : Instr) (s₁ s₂ t₁ t₂ : State), s₁.inp = s₂.inp → s₁.context = s₂.context →
    exec i s₁ = .next t₁ → exec i s₂ = .next t₂ → t₁.out = t₂.out ∧ t₁.context = t₂.context

/-- 60_exceptions.md R222: a command that consumes `wi` raises TransportError when `xerr` is 1 (once its operands
are good, R228); every other command ignores `wi`, `xerr` and `xinfo`. -/
def Obligations.TransportErrorReachesTheConsumersOfWi : Prop :=
  (∀ (i : Instr) (s : State), consumesWi i = true → operandFault i = none → s.inp.xerr = 1#1 →
    FaultsWith (.transport s.inp.xinfo) i s) ∧
  (∀ (i : Instr) (s : State) (wi : RegWord) (xerr : Bit) (xinfo : BitVec 8), consumesWi i = false →
    ∃ t t', exec i s = .next t ∧ exec i (s.withTransport wi xerr xinfo) = .next t' ∧
      t'.out = t.out ∧ t'.context = t.context)

/-- 60_exceptions.md R223: the commands that read a `cal.*` value register raise StaleCalibrationError while
`cal.valid` is 0 (a failed read comes first, R228); DECVSH, DECVBUS, DECTEMP never do. -/
def Obligations.StaleCalibrationIsReported : Prop :=
  (∀ (i : Instr) (s : State),
    (i ∈ [.deccur, .decpwr, .deceng, .decchg] ∧ s.inp.xerr = 0#1) ∨
      i ∈ [.enccal, .enctco, .rdctx 0#3, .rdctx 1#3, .rdctx 2#3, .rdctx 3#3] →
    s.calValid = 0#1 → FaultsWith .staleCalibration i s) ∧
  (∀ (i : Instr) (s t : State), i ∈ [.decvsh 0#1, .decvsh 1#1, .decvbus, .dectemp] → exec i s = .next t →
    t.out.flt ≠ some 3#4)

/-! ### Family 0: field codec and Register Map -/

/-- 40_field_codec.md R120. -/
def Obligations.NopDrivesOnlyFlt : Prop :=
  ∀ s : State, encode .nop = 0x00000000#32 ∧ exec .nop s = .next { s with out := { flt := some 0#4 } }

/-- 40_field_codec.md R124: the three cases of UNPACK, the value as the spec's arithmetic gives it. -/
def Obligations.UnpackDeliversTheField : Prop :=
  ∀ (rw : BitVec 2) (sgn : Bit) (width off : BitVec 6) (s : State),
    (encode (.unpack rw sgn width off)).toNat =
      1 * 2 ^ 26 + rw.toNat * 2 ^ 24 + sgn.toNat * 2 ^ 15 + width.toNat * 2 ^ 8 + off.toNat ∧
    (¬LegalDesc rw width.toNat off.toNat → FaultsWith .badDescriptor (.unpack rw sgn width off) s) ∧
    (LegalDesc rw width.toNat off.toNat → s.inp.xerr = 1#1 →
      FaultsWith (.transport s.inp.xinfo) (.unpack rw sgn width off) s) ∧
    (LegalDesc rw width.toNat off.toNat → s.inp.xerr = 0#1 →
      ∃ v : Value, exec (.unpack rw sgn width off) s = .next { s with out := { vo := some v, flt := some 0#4 } } ∧
        v.toInt = valueOf sgn width.toNat (fieldNat (regBits rw) off.toNat width.toNat s.inp.wi))

/-- 40_field_codec.md R125: the four cases of PACK, the word bit by bit. -/
def Obligations.PackReplacesOnlyTheField : Prop :=
  ∀ (rw : BitVec 2) (sgn : Bit) (width off : BitVec 6) (s : State),
    (encode (.pack rw sgn width off)).toNat =
      2 * 2 ^ 26 + rw.toNat * 2 ^ 24 + sgn.toNat * 2 ^ 15 + width.toNat * 2 ^ 8 + off.toNat ∧
    (¬LegalDesc rw width.toNat off.toNat → FaultsWith .badDescriptor (.pack rw sgn width off) s) ∧
    (LegalDesc rw width.toNat off.toNat → s.inp.xerr = 1#1 →
      FaultsWith (.transport s.inp.xinfo) (.pack rw sgn width off) s) ∧
    (LegalDesc rw width.toNat off.toNat → s.inp.xerr = 0#1 → ¬InRange sgn width.toNat s.inp.vi → s.strict = 1#1 →
      FaultsWith (.codecRange width.toNat) (.pack rw sgn width off) s) ∧
    (LegalDesc rw width.toNat off.toNat → s.inp.xerr = 0#1 → InRange sgn width.toNat s.inp.vi ∨ s.strict = 0#1 →
      ∃ w : RegWord, exec (.pack rw sgn width off) s = .next { s with out := { wo := some w, flt := some 0#4 } } ∧
        Packed (regBits rw) off.toNat width.toNat s.inp.wi s.inp.vi w)

/-- 40_field_codec.md R127: RMAP's three answers, and that it never faults. -/
def Obligations.RmapAnswersFromTheMap : Prop :=
  ∀ (addr : RegAddr) (idx : BitVec 4) (s : State),
    (encode (.rmap addr idx)).toNat = 3 * 2 ^ 26 + addr.toNat * 2 ^ 16 + idx.toNat ∧
    (rmapLookup addr = none →
      exec (.rmap addr idx) s = .next { s with out := { dout := { valid := some 0#1 }, flt := some 0#4 } }) ∧
    (∀ r, rmapLookup addr = some r → r.fields.length ≤ idx.toNat →
      ∃ n : BitVec 4, n.toNat = r.fields.length ∧
        exec (.rmap addr idx) s = .next { s with out :=
          { dout := { valid := some 0#1, rw := some r.rw.code, nfields := some n }, flt := some 0#4 } }) ∧
    (∀ r d, rmapLookup addr = some r → r.fields[idx.toNat]? = some d →
      ∃ n : BitVec 4, n.toNat = r.fields.length ∧
        exec (.rmap addr idx) s = .next { s with out :=
          { dout := { valid := some 1#1, rw := some r.rw.code, nfields := some n, off := some d.off,
                      width := some d.width, sgn := some d.sgn }, flt := some 0#4 } })

/-- 40_field_codec.md R128: UNPACKR takes its descriptor from the map. -/
def Obligations.UnpackrDeliversTheMappedField : Prop :=
  ∀ (addr : RegAddr) (idx : BitVec 4) (s : State),
    (encode (.unpackr addr idx)).toNat = 4 * 2 ^ 26 + addr.toNat * 2 ^ 16 + idx.toNat ∧
    (mapField addr idx = none → FaultsWith (.badAddress addr) (.unpackr addr idx) s) ∧
    (∀ W d, mapField addr idx = some (W, d) → s.inp.xerr = 1#1 →
      FaultsWith (.transport s.inp.xinfo) (.unpackr addr idx) s) ∧
    (∀ W d, mapField addr idx = some (W, d) → s.inp.xerr = 0#1 →
      ∃ v : Value, exec (.unpackr addr idx) s = .next { s with out := { vo := some v, flt := some 0#4 } } ∧
        v.toInt = valueOf d.sgn d.width.toNat (fieldNat W.bits d.off.toNat d.width.toNat s.inp.wi))

/-- 40_field_codec.md R129: PACKR takes its descriptor from the map and looks at no access right. -/
def Obligations.PackrReplacesOnlyTheMappedField : Prop :=
  ∀ (addr : RegAddr) (idx : BitVec 4) (s : State),
    (encode (.packr addr idx)).toNat = 5 * 2 ^ 26 + addr.toNat * 2 ^ 16 + idx.toNat ∧
    (mapField addr idx = none → FaultsWith (.badAddress addr) (.packr addr idx) s) ∧
    (∀ W d, mapField addr idx = some (W, d) → s.inp.xerr = 1#1 →
      FaultsWith (.transport s.inp.xinfo) (.packr addr idx) s) ∧
    (∀ W d, mapField addr idx = some (W, d) → s.inp.xerr = 0#1 → ¬InRange d.sgn d.width.toNat s.inp.vi →
      s.strict = 1#1 → FaultsWith (.codecRange d.width.toNat) (.packr addr idx) s) ∧
    (∀ W d, mapField addr idx = some (W, d) → s.inp.xerr = 0#1 →
      InRange d.sgn d.width.toNat s.inp.vi ∨ s.strict = 0#1 →
      ∃ w : RegWord, exec (.packr addr idx) s = .next { s with out := { wo := some w, flt := some 0#4 } } ∧
        Packed W.bits d.off.toNat d.width.toNat s.inp.wi s.inp.vi w)

/-- The Register Map is the spec's table (10_state.md R31 to R47), and every lookup reads it: for every address the
record found is the table's row of that address, and for every address and index the descriptor found is that row's
field of that index, none where the table has none. -/
def Obligations.RegisterMapIsTheSpecsTable : Prop :=
  regTable.map RegRecord.row = specMap ∧
  (∀ addr : RegAddr, (rmapLookup addr).map RegRecord.row = specRow addr) ∧
  (∀ (addr : RegAddr) (idx : BitVec 4),
    (mapField addr idx).map (fun e => (e.1.bits, e.2.off.toNat, e.2.width.toNat, e.2.sgn.toNat)) =
      match specRow addr with
      | none => none
      | some row => (row.fields[idx.toNat]?).map (fun f => (row.bits, f.1, f.2.1, f.2.2)))

/-- 10_state.md R30, R46: the map's invariants, and which addresses are mapped. -/
def Obligations.RegisterMapInvariants : Prop :=
  (∀ addr : RegAddr, (rmapLookup addr).isSome = true ↔
    addr.toNat ≤ 0x11 ∨ addr.toNat = 0x3E ∨ addr.toNat = 0x3F) ∧
  (∀ (addr : RegAddr) (r : RegRecord), rmapLookup addr = some r → r.addr = addr ∧ 1 ≤ r.fields.length ∧
    r.fields.length ≤ 15 ∧
    (∀ d ∈ r.fields, 1 ≤ d.width.toNat ∧ d.off.toNat + d.width.toNat ≤ r.rw.bits) ∧
    r.fields.Pairwise (fun d e => e.off.toNat + e.width.toNat ≤ d.off.toNat))

/-- 40_field_codec.md R131 (1), (3): packing an accepted value and unpacking the word gives the value back; packing
what was unpacked leaves the register word as it was. -/
def Obligations.PackAndUnpackAreInverse : Prop :=
  ∀ (rw : BitVec 2) (sgn : Bit) (width off : BitVec 6) (s : State),
    LegalDesc rw width.toNat off.toNat → s.inp.xerr = 0#1 →
    (InRange sgn width.toNat s.inp.vi →
      ∃ t w u, exec (.pack rw sgn width off) s = .next t ∧ t.out.wo = some w ∧
        exec (.unpack rw sgn width off) (t.withTransport w 0#1 0#8) = .next u ∧ u.out.vo = some s.inp.vi) ∧
    (∃ t v u w, exec (.unpack rw sgn width off) s = .next t ∧ t.out.vo = some v ∧
      exec (.pack rw sgn width off) (t.present { t.inp with vi := v }) = .next u ∧ u.out.wo = some w ∧
      w.toNat = s.inp.wi.toNat % 2 ^ regBits rw)

/-- 40_field_codec.md R131 (4): packing one field does not change what a field that does not overlap it unpacks to. -/
def Obligations.PackLeavesDisjointFieldsAlone : Prop :=
  ∀ (rw : BitVec 2) (sgn sgn' : Bit) (width off width' off' : BitVec 6) (s : State),
    LegalDesc rw width.toNat off.toNat → LegalDesc rw width'.toNat off'.toNat → s.inp.xerr = 0#1 →
    InRange sgn width.toNat s.inp.vi ∨ s.strict = 0#1 →
    off.toNat + width.toNat ≤ off'.toNat ∨ off'.toNat + width'.toNat ≤ off.toNat →
    ∃ t w u u', exec (.pack rw sgn width off) s = .next t ∧ t.out.wo = some w ∧
      exec (.unpack rw sgn' width' off') s = .next u ∧
      exec (.unpack rw sgn' width' off') (t.withTransport w 0#1 0#8) = .next u' ∧ u'.out.vo = u.out.vo

/-! ### Family 1: configuration and selectors -/

/-- 41_configuration.md R141: the `config` word; `xerr` is ignored and no context register is written. -/
def Obligations.EnccfgBuildsTheConfigWord : Prop :=
  ∀ s : State, encode .enccfg = 0x20000000#32 ∧
    ∃ w : RegWord, exec .enccfg s = .next { s with out := { wo := some w, flt := some 0#4 } } ∧
      w.toNat = s.inp.ci.rst.toNat * 2 ^ 15 + s.inp.ci.rstacc.toNat * 2 ^ 14 + s.inp.ci.convdly.toNat * 2 ^ 6 +
        s.inp.ci.tempcomp.toNat * 2 ^ 5 + s.inp.ci.adcrange.toNat * 2 ^ 4

/-- 41_configuration.md R142: the `adc_config` word. -/
def Obligations.EncadcBuildsTheAdcConfigWord : Prop :=
  ∀ s : State, encode .encadc = 0x24000000#32 ∧
    ∃ w : RegWord, exec .encadc s = .next { s with out := { wo := some w, flt := some 0#4 } } ∧
      w.toNat = s.inp.ci.mode.toNat * 2 ^ 12 + s.inp.ci.vbusct.toNat * 2 ^ 9 + s.inp.ci.vshct.toNat * 2 ^ 6 +
        s.inp.ci.vtct.toNat * 2 ^ 3 + s.inp.ci.avg.toNat

/-- 41_configuration.md R144: DECCFG reports the two pulses as 0 whatever the word holds. -/
def Obligations.DeccfgHidesThePulses : Prop :=
  ∀ s : State, encode .deccfg = 0x28000000#32 ∧
    (s.inp.xerr = 1#1 → FaultsWith (.transport s.inp.xinfo) .deccfg s) ∧
    (s.inp.xerr = 0#1 → ∃ (dly : BitVec 8) (tc rg : Bit),
      exec .deccfg s = .next { s with out :=
        { co := { rst := some 0#1, rstacc := some 0#1, convdly := some dly, tempcomp := some tc,
                  adcrange := some rg },
          flt := some 0#4 } } ∧
      dly.toNat = s.inp.wi.toNat / 2 ^ 6 % 2 ^ 8 ∧ tc.toNat = s.inp.wi.toNat / 2 ^ 5 % 2 ∧
      rg.toNat = s.inp.wi.toNat / 2 ^ 4 % 2)

/-- 41_configuration.md R145: the five fields of an `adc_config` word. -/
def Obligations.DecadcReportsTheFields : Prop :=
  ∀ s : State, encode .decadc = 0x2C000000#32 ∧
    (s.inp.xerr = 1#1 → FaultsWith (.transport s.inp.xinfo) .decadc s) ∧
    (s.inp.xerr = 0#1 → ∃ (m : BitVec 4) (vb vs vt av : BitVec 3),
      exec .decadc s = .next { s with out :=
        { co := { mode := some m, vbusct := some vb, vshct := some vs, vtct := some vt, avg := some av },
          flt := some 0#4 } } ∧
      m.toNat = s.inp.wi.toNat / 2 ^ 12 % 2 ^ 4 ∧ vb.toNat = s.inp.wi.toNat / 2 ^ 9 % 2 ^ 3 ∧
      vs.toNat = s.inp.wi.toNat / 2 ^ 6 % 2 ^ 3 ∧ vt.toNat = s.inp.wi.toNat / 2 ^ 3 % 2 ^ 3 ∧
      av.toNat = s.inp.wi.toNat % 2 ^ 3)

/-- 41_configuration.md R143, R146: encode then decode gives the Configuration back, the two pulses excepted. -/
def Obligations.ConfigurationRoundTrips : Prop :=
  ∀ s : State, ∃ t w u t' w' u',
    exec .enccfg s = .next t ∧ t.out.wo = some w ∧ exec .deccfg (t.withTransport w 0#1 0#8) = .next u ∧
    u.out.co = { rst := some 0#1, rstacc := some 0#1, convdly := some s.inp.ci.convdly,
                 tempcomp := some s.inp.ci.tempcomp, adcrange := some s.inp.ci.adcrange } ∧
    exec .encadc s = .next t' ∧ t'.out.wo = some w' ∧ exec .decadc (t'.withTransport w' 0#1 0#8) = .next u' ∧
    u'.out.co = { mode := some s.inp.ci.mode, vbusct := some s.inp.ci.vbusct, vshct := some s.inp.ci.vshct,
                  vtct := some s.inp.ci.vtct, avg := some s.inp.ci.avg }

/-- 41_configuration.md R147: the mode code is the enable mask, and no enabled channel is shutdown. -/
def Obligations.MuxselSplitsTheModeCode : Prop :=
  ∀ (m : BitVec 4) (s : State), encode (.muxsel m) = 0x30000000#32 ||| m.setWidth 32 ∧
    ∃ cont temp shunt bus shut : Bit,
      exec (.muxsel m) s = .next { s with out :=
        { mo := { cont := some cont, temp := some temp, shunt := some shunt, bus := some bus,
                  shutdown := some shut },
          flt := some 0#4 } } ∧
      m.toNat = 8 * cont.toNat + 4 * temp.toNat + 2 * shunt.toNat + bus.toNat ∧
      (shut = 1#1 ↔ temp = 0#1 ∧ shunt = 0#1 ∧ bus = 0#1)

/-- 41_configuration.md R148, R149, R150: the three selector tables. -/
def Obligations.SelectorsDeliverTheirTables : Prop :=
  (∀ (r : Bit) (s : State), encode (.rngsel r) = 0x3C000000#32 ||| r.setWidth 32 ∧
    ∃ v : Value, exec (.rngsel r) s = .next { s with out := { vo := some v, flt := some 0#4 } } ∧
      [40, 10][r.toNat]? = some v.toInt) ∧
  (∀ (c : BitVec 3) (s : State), encode (.ctsel c) = 0x34000000#32 ||| c.setWidth 32 ∧
    ∃ v : Value, exec (.ctsel c) s = .next { s with out := { vo := some v, flt := some 0#4 } } ∧
      [50, 84, 150, 280, 540, 1052, 2074, 4120][c.toNat]? = some v.toInt) ∧
  (∀ (a : BitVec 3) (s : State), encode (.avgsel a) = 0x38000000#32 ||| a.setWidth 32 ∧
    ∃ v : Value, exec (.avgsel a) s = .next { s with out := { vo := some v, flt := some 0#4 } } ∧
      [1, 4, 16, 64, 128, 256, 512, 1024][a.toNat]? = some v.toInt)

/-! ### Family 2: calibration context and control -/

/-- 42_calibration_context.md R161: five writes in one step, no result port. -/
def Obligations.SetcalLoadsTheContext : Prop :=
  ∀ s : State, encode .setcal = 0x40000000#32 ∧
    exec .setcal s = .next
      { s with
        calValid := 1#1, shuntCal := some s.inp.ki.shuntCal, tempco := some s.inp.ki.tempco,
        curLsb := some s.inp.ki.curLsb, pwrLsb := some s.inp.ki.pwrLsb, out := { flt := some 0#4 } }

/-- 42_calibration_context.md R162: after CLRCAL the four value registers hold no value. -/
def Obligations.ClrcalWithdrawsTheContext : Prop :=
  ∀ s : State, encode .clrcal = 0x44000000#32 ∧
    exec .clrcal s = .next
      { s with
        calValid := 0#1, shuntCal := none, tempco := none, curLsb := none, pwrLsb := none,
        out := { flt := some 0#4 } }

/-- 42_calibration_context.md R163: SETCTL writes the policy bit and nothing else. -/
def Obligations.SetctlWritesThePolicyBit : Prop :=
  ∀ (b : Bit) (s : State), encode (.setctl b) = 0x48000000#32 ||| b.setWidth 32 ∧
    exec (.setctl b) s = .next { s with strict := b, out := { flt := some 0#4 } }

/-- 42_calibration_context.md R164, R165: the calibration and temperature-coefficient words, reserved bits 0. -/
def Obligations.CalibrationWordsFromTheContext : Prop :=
  ∀ s : State,
    (encode .enccal = 0x4C000000#32 ∧ encode .enctco = 0x50000000#32) ∧
    (s.calValid = 0#1 → FaultsWith .staleCalibration .enccal s ∧ FaultsWith .staleCalibration .enctco s) ∧
    (∀ k : BitVec 15, s.calValid = 1#1 → s.shuntCal = some k →
      ∃ w : RegWord, exec .enccal s = .next { s with out := { wo := some w, flt := some 0#4 } } ∧
        w.toNat = k.toNat) ∧
    (∀ k : BitVec 14, s.calValid = 1#1 → s.tempco = some k →
      ∃ w : RegWord, exec .enctco s = .next { s with out := { wo := some w, flt := some 0#4 } } ∧
        w.toNat = k.toNat)

/-- 42_calibration_context.md R166: RDCTX selector by selector. -/
def Obligations.RdctxReadsTheContext : Prop :=
  ∀ (sel : BitVec 3) (s : State), encode (.rdctx sel) = 0x54000000#32 ||| sel.setWidth 32 ∧
    (4 < sel.toNat → decode (encode (.rdctx sel)) = .illegal .badSelector 0x15#6 ∧
      (s.inp.rst = 0#1 → s.inp.cmd = encode (.rdctx sel) →
        step s = .next { s with out := { flt := some 4#4, finfo := some 0x15#8 } })) ∧
    (sel.toNat ≤ 3 → s.calValid = 0#1 → FaultsWith .staleCalibration (.rdctx sel) s) ∧
    (∀ (k₀ : BitVec 15) (k₁ : BitVec 14) (k₂ k₃ : BitVec 32), s.calValid = 1#1 → s.shuntCal = some k₀ →
      s.tempco = some k₁ → s.curLsb = some k₂ → s.pwrLsb = some k₃ → sel.toNat ≤ 3 →
      ∃ v : Value, exec (.rdctx sel) s = .next { s with out := { vo := some v, flt := some 0#4 } } ∧
        [k₀.toNat, k₁.toNat, k₂.toNat, k₃.toNat][sel.toNat]? = some v.toNat) ∧
    (sel.toNat = 4 → ∃ v : Value,
      exec (.rdctx sel) s = .next { s with out := { vo := some v, flt := some 0#4 } } ∧
        v.toNat = 2 * s.strict.toNat + s.calValid.toNat)

/-! ### Family 3: measurement -/

/-- 43_measurement.md R181: the signed field times 40 or 10, exactly. -/
def Obligations.DecvshIsTheExactProduct : Prop :=
  ∀ (r : Bit) (s : State), encode (.decvsh r) = 0x60000000#32 ||| r.setWidth 32 ∧
    (s.inp.xerr = 1#1 → FaultsWith (.transport s.inp.xinfo) (.decvsh r) s) ∧
    (s.inp.xerr = 0#1 → ∃ v : Value,
      exec (.decvsh r) s = .next { s with out := { vo := some v, flt := some 0#4 } } ∧
      v.toInt = valueOf 1#1 20 (fieldNat 24 4 20 s.inp.wi) * (if r = 1#1 then 10 else 40))

/-- 43_measurement.md R182: the unsigned field times 25. -/
def Obligations.DecvbusIsTheExactProduct : Prop :=
  ∀ s : State, encode .decvbus = 0x64000000#32 ∧
    (s.inp.xerr = 1#1 → FaultsWith (.transport s.inp.xinfo) .decvbus s) ∧
    (s.inp.xerr = 0#1 → ∃ v : Value,
      exec .decvbus s = .next { s with out := { vo := some v, flt := some 0#4 } } ∧
      v.toInt = (fieldNat 24 4 20 s.inp.wi : Int) * 25)

/-- 43_measurement.md R183: the signed 16-bit field times 25. -/
def Obligations.DectempIsTheExactProduct : Prop :=
  ∀ s : State, encode .dectemp = 0x68000000#32 ∧
    (s.inp.xerr = 1#1 → FaultsWith (.transport s.inp.xinfo) .dectemp s) ∧
    (s.inp.xerr = 0#1 → ∃ v : Value,
      exec .dectemp s = .next { s with out := { vo := some v, flt := some 0#4 } } ∧
      v.toInt = valueOf 1#1 16 (fieldNat 16 0 16 s.inp.wi) * 25)

/-- 43_measurement.md R184: the signed field times the current scale factor. -/
def Obligations.DeccurIsTheExactProduct : Prop :=
  ∀ s : State, encode .deccur = 0x6C000000#32 ∧
    (s.inp.xerr = 1#1 → FaultsWith (.transport s.inp.xinfo) .deccur s) ∧
    (s.inp.xerr = 0#1 → s.calValid = 0#1 → FaultsWith .staleCalibration .deccur s) ∧
    (∀ k : BitVec 32, s.inp.xerr = 0#1 → s.calValid = 1#1 → s.curLsb = some k → ∃ v : Value,
      exec .deccur s = .next { s with out := { vo := some v, flt := some 0#4 } } ∧
      v.toInt = valueOf 1#1 20 (fieldNat 24 4 20 s.inp.wi) * k.toNat)

/-- 43_measurement.md R185: the unsigned 24-bit field times the power scale factor. -/
def Obligations.DecpwrIsTheExactProduct : Prop :=
  ∀ s : State, encode .decpwr = 0x70000000#32 ∧
    (s.inp.xerr = 1#1 → FaultsWith (.transport s.inp.xinfo) .decpwr s) ∧
    (s.inp.xerr = 0#1 → s.calValid = 0#1 → FaultsWith .staleCalibration .decpwr s) ∧
    (∀ k : BitVec 32, s.inp.xerr = 0#1 → s.calValid = 1#1 → s.pwrLsb = some k → ∃ v : Value,
      exec .decpwr s = .next { s with out := { vo := some v, flt := some 0#4 } } ∧
      v.toInt = (fieldNat 24 0 24 s.inp.wi : Int) * k.toNat)

/-- 43_measurement.md R186: the unsigned 40-bit field times 16 times the power scale factor. -/
def Obligations.DecengIsTheExactProduct : Prop :=
  ∀ s : State, encode .deceng = 0x74000000#32 ∧
    (s.inp.xerr = 1#1 → FaultsWith (.transport s.inp.xinfo) .deceng s) ∧
    (s.inp.xerr = 0#1 → s.calValid = 0#1 → FaultsWith .staleCalibration .deceng s) ∧
    (∀ k : BitVec 32, s.inp.xerr = 0#1 → s.calValid = 1#1 → s.pwrLsb = some k → ∃ v : Value,
      exec .deceng s = .next { s with out := { vo := some v, flt := some 0#4 } } ∧
      v.toInt = (fieldNat 40 0 40 s.inp.wi : Int) * 16 * k.toNat)

/-- 43_measurement.md R187: the signed 40-bit field times the current scale factor. -/
def Obligations.DecchgIsTheExactProduct : Prop :=
  ∀ s : State, encode .decchg = 0x78000000#32 ∧
    (s.inp.xerr = 1#1 → FaultsWith (.transport s.inp.xinfo) .decchg s) ∧
    (s.inp.xerr = 0#1 → s.calValid = 0#1 → FaultsWith .staleCalibration .decchg s) ∧
    (∀ k : BitVec 32, s.inp.xerr = 0#1 → s.calValid = 1#1 → s.curLsb = some k → ∃ v : Value,
      exec .decchg s = .next { s with out := { vo := some v, flt := some 0#4 } } ∧
      v.toInt = valueOf 1#1 40 (fieldNat 40 0 40 s.inp.wi) * k.toNat)

/-- 43_measurement.md R190 (6): each measurement is monotone in its field, read as its descriptor says. -/
def Obligations.MeasurementsAreMonotone : Prop :=
  ∀ (i : Instr) (sgn : Bit) (W off width : Nat),
    (i, sgn, W, off, width) ∈ [(.decvsh 0#1, 1#1, 24, 4, 20), (.decvsh 1#1, 1#1, 24, 4, 20),
      (.decvbus, 0#1, 24, 4, 20), (.dectemp, 1#1, 16, 0, 16), (.deccur, 1#1, 24, 4, 20),
      (.decpwr, 0#1, 24, 0, 24), (.deceng, 0#1, 40, 0, 40), (.decchg, 1#1, 40, 0, 40)] →
    ∀ (s t₁ t₂ : State) (w₁ w₂ : RegWord) (v₁ v₂ : Value),
      valueOf sgn width (fieldNat W off width w₁) ≤ valueOf sgn width (fieldNat W off width w₂) →
      exec i (s.withTransport w₁ 0#1 0#8) = .next t₁ → exec i (s.withTransport w₂ 0#1 0#8) = .next t₂ →
      t₁.out.vo = some v₁ → t₂.out.vo = some v₂ → v₁.toInt ≤ v₂.toInt

/-! ### Family 4: diagnostic flags, alert configuration, thresholds -/

/-- 44_diagnostic.md R201: each of the 15 flags is its bit of the word; bit 8 is not looked at. -/
def Obligations.DecflgReportsEachBit : Prop :=
  ∀ s : State, encode .decflg = 0x80000000#32 ∧
    (s.inp.xerr = 1#1 → FaultsWith (.transport s.inp.xinfo) .decflg s) ∧
    (s.inp.xerr = 0#1 → ∃ f : Nat → Bit, (∀ k, (f k).toNat = s.inp.wi.toNat / 2 ^ k % 2) ∧
      exec .decflg s = .next { s with out := { flt := some 0#4, fo := {
        alertLatch := some (f 15), convReadyOnAlert := some (f 14), assertOnAverage := some (f 13),
        alertPolarity := some (f 12), energyOverflow := some (f 11), chargeOverflow := some (f 10),
        mathOverflow := some (f 9), tempOverLimit := some (f 7), shuntOverLimit := some (f 6),
        shuntUnderLimit := some (f 5), busOverLimit := some (f 4), busUnderLimit := some (f 3),
        powerOverLimit := some (f 2), conversionComplete := some (f 1), checksumError := some (f 0) } } })

/-- 44_diagnostic.md R202: the four booleans at bits 15:12, every status bit 0. -/
def Obligations.EncalrtSetsOnlyConfigurationBits : Prop :=
  ∀ (b : BitVec 4) (s : State), encode (.encalrt b) = 0x84000000#32 ||| b.setWidth 32 ∧
    ∃ w : RegWord, exec (.encalrt b) s = .next { s with out := { wo := some w, flt := some 0#4 } } ∧
      w.toNat = b.toNat * 2 ^ 12

/-- 44_diagnostic.md R203: MASKALRT keeps bits 15:12 of the word and clears the rest. -/
def Obligations.MaskalrtKeepsOnlyConfigurationBits : Prop :=
  ∀ s : State, encode .maskalrt = 0x88000000#32 ∧
    (s.inp.xerr = 1#1 → FaultsWith (.transport s.inp.xinfo) .maskalrt s) ∧
    (s.inp.xerr = 0#1 → ∃ w : RegWord,
      exec .maskalrt s = .next { s with out := { wo := some w, flt := some 0#4 } } ∧
      w.toNat = s.inp.wi.toNat / 2 ^ 12 % 2 ^ 4 * 2 ^ 12)

/-- 44_diagnostic.md R204: the unsigned 16-bit passthrough, its address check and its range policy. -/
def Obligations.EncthrPassesTheThresholdThrough : Prop :=
  ∀ (addr : RegAddr) (s : State), encode (.encthr addr) = 0x8C000000#32 ||| addr.setWidth 32 <<< 16 ∧
    (addr.toNat < 0x0C ∨ 0x11 < addr.toNat → FaultsWith (.badAddress addr) (.encthr addr) s) ∧
    (0x0C ≤ addr.toNat → addr.toNat ≤ 0x11 → 0xFFFF < s.inp.vi.toNat → s.strict = 1#1 →
      FaultsWith (.codecRange 16) (.encthr addr) s) ∧
    (0x0C ≤ addr.toNat → addr.toNat ≤ 0x11 → s.inp.vi.toNat ≤ 0xFFFF ∨ s.strict = 0#1 →
      ∃ w : RegWord, exec (.encthr addr) s = .next { s with out := { wo := some w, flt := some 0#4 } } ∧
        w.toNat = s.inp.vi.toNat % 2 ^ 16)

/-- 44_diagnostic.md R205: DECTHR, never negative, bits 39:16 of `wi` ignored. -/
def Obligations.DecthrPassesTheThresholdThrough : Prop :=
  ∀ (addr : RegAddr) (s : State), encode (.decthr addr) = 0x90000000#32 ||| addr.setWidth 32 <<< 16 ∧
    (addr.toNat < 0x0C ∨ 0x11 < addr.toNat → FaultsWith (.badAddress addr) (.decthr addr) s) ∧
    (0x0C ≤ addr.toNat → addr.toNat ≤ 0x11 → s.inp.xerr = 1#1 →
      FaultsWith (.transport s.inp.xinfo) (.decthr addr) s) ∧
    (0x0C ≤ addr.toNat → addr.toNat ≤ 0x11 → s.inp.xerr = 0#1 →
      ∃ v : Value, exec (.decthr addr) s = .next { s with out := { vo := some v, flt := some 0#4 } } ∧
        v.toInt = (s.inp.wi.toNat % 2 ^ 16 : Nat))

/-! ### The device register space -/

/-- 20_memory.md R64: the two conversions, most significant byte first, inverse to each other. -/
def Obligations.BytesTravelMostSignificantFirst : Prop :=
  (∀ bs : List Byte, bs.length ≤ 5 →
    (wordOfBytes bs).toNat = Nat.ofDigits 256 (bs.map BitVec.toNat).reverse ∧
    bytesOfWord (wordOfBytes bs) bs.length = bs) ∧
  (∀ (w : RegWord) (n : Nat), n ≤ 5 → (wordOfBytes (bytesOfWord w n)).toNat = w.toNat % 2 ^ (8 * n))

/-- 20_memory.md R63: an access has a meaning only at a mapped address and at the register's size; the two stops
are the model's (log 12). -/
def Obligations.AccessesNeedTheRegistersWidth : Prop :=
  ∀ (addr : RegAddr) (n : Nat) (s : State),
    (rmapLookup addr = none → ∀ f w b,
      busRead addr n f s = .fault (.unmappedAddress addr) ∧ busWrite addr n w b s = .fault (.unmappedAddress addr)) ∧
    (∀ r, rmapLookup addr = some r → n * 8 ≠ r.rw.bits → ∀ f w b,
      busRead addr n f s = .refused (.accessSize addr n) ∧ busWrite addr n w b s = .refused (.accessSize addr n)) ∧
    (∀ r, rmapLookup addr = some r → n * 8 = r.rw.bits → ∀ f, ∃ t, busRead addr n f s = .next t)

/-- 20_memory.md R68 (d), R77: of adc_config, the calibration registers and the thresholds the field reads back as
written, and writing changes no other register's bytes (keys and bytes: log 7); without a write, two reads find the
same field. The reserved bits of 0x02 and 0x03 are left out: they read as any value (93 U3; the model's reading, log
10). That a register the host has not written reads the same twice is R77's "changed by host writes", held by the
model as said in log 8. -/
def Obligations.SettingsReadBackAsWritten : Prop :=
  ∀ (addr : RegAddr) (k : Nat) (w : RegWord) (s : State),
    (addr = 0x01#8 ∧ k = 16) ∨ (addr = 0x02#8 ∧ k = 15) ∨ (addr = 0x03#8 ∧ k = 14) ∨
      (0x0C ≤ addr.toNat ∧ addr.toNat ≤ 0x11 ∧ k = 16) →
    (∃ t u, busWrite addr 2 w false s = .next t ∧ busRead addr 2 none t = .next u ∧
      u.inp.wi.toNat % 2 ^ k = w.toNat % 2 ^ k ∧ u.inp.wi.toNat < 2 ^ 16 ∧ u.inp.xerr = 0#1 ∧ u.context = s.context ∧
      (∀ key, key < 8 * addr.toNat ∨ 8 * addr.toNat + 2 ≤ key → Memory.get u.dev key = Memory.get s.dev key)) ∧
    (∃ t u, busRead addr 2 none s = .next t ∧ busRead addr 2 none t = .next u ∧
      u.inp.wi.toNat % 2 ^ k = t.inp.wi.toNat % 2 ^ k ∧
      (∀ key, key < 8 * addr.toNat ∨ 8 * addr.toNat + 2 ≤ key → Memory.get u.dev key = Memory.get s.dev key))

/-- 20_memory.md R77: of `config` and `diagnostic_flags` the host's own bits read back, whatever the device does
with the others (free values, log 8; a reset pulse apart, log 9), and two reads find the same ones. That bits 15:12
of `diagnostic_flags` are held also after a write with a 1 in a status bit is the model's choice (log 17). -/
def Obligations.HostBitsReadBackAsWritten : Prop :=
  ∀ (w : RegWord) (s : State),
    (w.toNat / 2 ^ 15 % 2 = 0 → ∃ t u, busWrite 0x00#8 2 w false s = .next t ∧ busRead 0x00#8 2 none t = .next u ∧
      u.inp.wi.toNat / 2 ^ 4 % 2 ^ 10 = w.toNat / 2 ^ 4 % 2 ^ 10) ∧
    (∃ t u, busWrite 0x0B#8 2 w false s = .next t ∧ busRead 0x0B#8 2 none t = .next u ∧
      u.inp.wi.toNat / 2 ^ 12 = w.toNat / 2 ^ 12 % 2 ^ 4) ∧
    (∃ t u, busRead 0x00#8 2 none s = .next t ∧ busRead 0x00#8 2 none t = .next u ∧
      u.inp.wi.toNat / 2 ^ 4 % 2 ^ 10 = t.inp.wi.toNat / 2 ^ 4 % 2 ^ 10) ∧
    (∃ t u, busRead 0x0B#8 2 none s = .next t ∧ busRead 0x0B#8 2 none t = .next u ∧
      u.inp.wi.toNat / 2 ^ 12 = t.inp.wi.toNat / 2 ^ 12)

/-- 20_memory.md R76: a failed read reaches the command that consumes `wi` as a TransportError with its code; that
the qualifier stays on the ports is the model's (log 2). -/
def Obligations.FailedReadReachesTheCommand : Prop :=
  ∀ (addr : RegAddr) (n : Nat) (code : BitVec 8) (s t : State) (i : Instr),
    busRead addr n (some code) s = .next t → consumesWi i = true → operandFault i = none →
    FaultsWith (.transport code) i t
end

