-- ==== Sys2Proof/Laws/Encoding.lean ====
section
/-! SUPPORT. What the fields of an encoded command word read back as, format by format (30_encoding.md R91 to
R94), and that the opcode map's rows never overlap (R96). -/

namespace Sys2Proof

/-- Two bit strings agree when their bits do, one index at a time. -/
theorem word_ext {n : Nat} {a b : BitVec n} (h : ∀ i, i < n → a.getLsbD i = b.getLsbD i) : a = b :=
  BitVec.eq_of_getLsbD_eq h

@[simp] theorem opOf_encN (op : BitVec 6) : opOf (encN op) = op := by
  apply word_ext; intro i hi; unfold opOf encN; interval_cases i <;> simp

theorem encN_mask (op : BitVec 6) : encN op &&& 0xFFFFFFFF#32 = encN op := by
  apply word_ext; intro i hi; interval_cases i <;> simp

@[simp] theorem opOf_encF (op : BitVec 6) (rw : BitVec 2) (sgn : Bit) (width off : BitVec 6) :
    opOf (encF op rw sgn width off) = op := by
  apply word_ext; intro i hi; unfold opOf encF; interval_cases i <;> simp

@[simp] theorem rwOf_encF (op : BitVec 6) (rw : BitVec 2) (sgn : Bit) (width off : BitVec 6) :
    rwOf (encF op rw sgn width off) = rw := by
  apply word_ext; intro i hi; unfold rwOf encF; interval_cases i <;> simp

@[simp] theorem sgnOf_encF (op : BitVec 6) (rw : BitVec 2) (sgn : Bit) (width off : BitVec 6) :
    sgnOf (encF op rw sgn width off) = sgn := by
  apply word_ext; intro i hi; unfold sgnOf encF; interval_cases i <;> simp

@[simp] theorem widthOf_encF (op : BitVec 6) (rw : BitVec 2) (sgn : Bit) (width off : BitVec 6) :
    widthOf (encF op rw sgn width off) = width := by
  apply word_ext; intro i hi; unfold widthOf encF; interval_cases i <;> simp

@[simp] theorem offOf_encF (op : BitVec 6) (rw : BitVec 2) (sgn : Bit) (width off : BitVec 6) :
    offOf (encF op rw sgn width off) = off := by
  apply word_ext; intro i hi; unfold offOf encF; interval_cases i <;> simp

theorem encF_mask (op : BitVec 6) (rw : BitVec 2) (sgn : Bit) (width off : BitVec 6) :
    encF op rw sgn width off &&& 0xFCFF40C0#32 = encN op := by
  apply word_ext; intro i hi; unfold encF encN; interval_cases i <;> simp

@[simp] theorem opOf_encA (op : BitVec 6) (addr : RegAddr) (idx : BitVec 4) : opOf (encA op addr idx) = op := by
  apply word_ext; intro i hi; unfold opOf encA; interval_cases i <;> simp

@[simp] theorem addrOf_encA (op : BitVec 6) (addr : RegAddr) (idx : BitVec 4) :
    addrOf (encA op addr idx) = addr := by
  apply word_ext; intro i hi; unfold addrOf encA; interval_cases i <;> simp

@[simp] theorem idxOf_encA (op : BitVec 6) (addr : RegAddr) (idx : BitVec 4) : idxOf (encA op addr idx) = idx := by
  apply word_ext; intro i hi; unfold idxOf encA; interval_cases i <;> simp

theorem encA_mask (op : BitVec 6) (addr : RegAddr) (idx : BitVec 4) :
    encA op addr idx &&& 0xFF00FFF0#32 = encN op := by
  apply word_ext; intro i hi; unfold encA encN; interval_cases i <;> simp

theorem encA_zero_mask (op : BitVec 6) (addr : RegAddr) :
    encA op addr 0#4 &&& 0xFF00FFFF#32 = encN op := by
  apply word_ext; intro i hi; unfold encA encN; interval_cases i <;> simp

@[simp] theorem opOf_encI1 (op : BitVec 6) (imm : BitVec 1) : opOf (encI op imm) = op := by
  apply word_ext; intro i hi; unfold opOf encI; interval_cases i <;> simp

@[simp] theorem opOf_encI3 (op : BitVec 6) (imm : BitVec 3) : opOf (encI op imm) = op := by
  apply word_ext; intro i hi; unfold opOf encI; interval_cases i <;> simp

@[simp] theorem opOf_encI4 (op : BitVec 6) (imm : BitVec 4) : opOf (encI op imm) = op := by
  apply word_ext; intro i hi; unfold opOf encI; interval_cases i <;> simp

@[simp] theorem immOf_encI1 (op : BitVec 6) (imm : BitVec 1) : immOf 1 (encI op imm) = imm := by
  apply word_ext; intro i hi; unfold immOf encI; interval_cases i; simp

@[simp] theorem immOf_encI3 (op : BitVec 6) (imm : BitVec 3) : immOf 3 (encI op imm) = imm := by
  apply word_ext; intro i hi; unfold immOf encI; interval_cases i <;> simp

@[simp] theorem immOf_encI4 (op : BitVec 6) (imm : BitVec 4) : immOf 4 (encI op imm) = imm := by
  apply word_ext; intro i hi; unfold immOf encI; interval_cases i <;> simp

theorem encI1_mask (op : BitVec 6) (imm : BitVec 1) : encI op imm &&& 0xFFFFFFFE#32 = encN op := by
  apply word_ext; intro i hi; unfold encI encN; interval_cases i <;> simp

theorem encI3_mask (op : BitVec 6) (imm : BitVec 3) : encI op imm &&& 0xFFFFFFF8#32 = encN op := by
  apply word_ext; intro i hi; unfold encI encN; interval_cases i <;> simp

theorem encI4_mask (op : BitVec 6) (imm : BitVec 4) : encI op imm &&& 0xFFFFFFF0#32 = encN op := by
  apply word_ext; intro i hi; unfold encI encN; interval_cases i <;> simp

/-- 30_encoding.md R96: no two rows can match one word, because every mask holds the whole `op` field and the `op`
values differ; and a row's pattern is its `op`. -/
theorem opRows_disjoint :
    opRows.Pairwise (fun a b => a.op ≠ b.op) ∧
      ∀ r ∈ opRows, r.mask &&& 0xFC000000#32 = 0xFC000000#32 ∧ r.pat = encN r.op ∧ r.pat &&& r.mask = r.pat := by
  decide

/-- What `decode` does with the word of a row that matches. -/
theorem decode_of_row {c : CmdWord} {r : OpRow} (h1 : opRows.find? (fun r => r.op == opOf c) = some r)
    (h2 : c &&& r.mask = r.pat) (h3 : (r.build c).wellFormed = true) : decode c = .instr (r.build c) := by
  simp [decode, h1, h2, h3]

/-- Field sums: `or` of a shifted number and one below the shift is their sum. -/
theorem shifted_or (a b k : Nat) (h : b < 2^k) : (a * 2^k) ||| b = a * 2^k + b := by
  rw [← Nat.shiftLeft_eq, Nat.shiftLeft_add_eq_or_of_lt h]

/-- 30_encoding.md R105, format A, as a number. -/
theorem encA_toNat (op : BitVec 6) (addr : RegAddr) (idx : BitVec 4) :
    (encA op addr idx).toNat = op.toNat * 2^26 + addr.toNat * 2^16 + idx.toNat := by
  have h1 := op.isLt; have h2 := addr.isLt; have h3 := idx.isLt
  simp only [encA, BitVec.toNat_or, BitVec.toNat_shiftLeft, BitVec.toNat_setWidth, Nat.shiftLeft_eq]
  rw [Nat.mod_eq_of_lt (by omega), Nat.mod_eq_of_lt (by omega), Nat.mod_eq_of_lt (by omega),
    Nat.mod_eq_of_lt (by omega), Nat.mod_eq_of_lt (by omega)]
  rw [shifted_or _ _ 26 (by omega)]
  rw [show op.toNat * 2^26 + addr.toNat * 2^16 = (op.toNat * 2^10 + addr.toNat) * 2^16 by omega, shifted_or _ _ 16 (by omega)]

/-- 30_encoding.md R105, format F, as a number. -/
theorem encF_toNat (op : BitVec 6) (rw : BitVec 2) (sgn : Bit) (width off : BitVec 6) :
    (encF op rw sgn width off).toNat = op.toNat * 2^26 + rw.toNat * 2^24 + sgn.toNat * 2^15 + width.toNat * 2^8 + off.toNat := by
  have h1 := op.isLt; have h2 := rw.isLt; have h3 := sgn.isLt; have h4 := width.isLt; have h5 := off.isLt
  simp only [encF, BitVec.toNat_or, BitVec.toNat_shiftLeft, BitVec.toNat_setWidth, Nat.shiftLeft_eq]
  repeat rw [Nat.mod_eq_of_lt (a := _ * _) (by omega)]
  repeat rw [Nat.mod_eq_of_lt (by omega)]
  rw [shifted_or _ _ 26 (by omega)]
  rw [show op.toNat * 2^26 + rw.toNat * 2^24 = (op.toNat * 2^2 + rw.toNat) * 2^24 by omega, shifted_or _ _ 24 (by omega)]
  rw [show (op.toNat * 2^2 + rw.toNat) * 2^24 + sgn.toNat * 2^15 = ((op.toNat * 2^2 + rw.toNat) * 2^9 + sgn.toNat) * 2^15 by omega, shifted_or _ _ 15 (by omega)]
  rw [show ((op.toNat * 2^2 + rw.toNat) * 2^9 + sgn.toNat) * 2^15 + width.toNat * 2^8 = (((op.toNat * 2^2 + rw.toNat) * 2^9 + sgn.toNat) * 2^7 + width.toNat) * 2^8 by omega, shifted_or _ _ 8 (by omega)]

end Sys2Proof
end

