-- ==== Sys2Proof/Laws/Fields.lean ====
section
/-! SUPPORT. What the field helpers compute: the spec's arithmetic for fields, values, ranges and packed words. -/

namespace Sys2Proof.Machine

theorem valueOf_eq_fieldInt {w : Nat} (hw : 1 ≤ w) (sgn : Bit) (f : BitVec w) :
    fieldInt sgn f = valueOf sgn w f.toNat := by
  obtain ⟨k, rfl⟩ : ∃ k, w = k + 1 := ⟨w - 1, by omega⟩
  unfold fieldInt valueOf
  by_cases h : sgn = 1#1
  · simp only [h, true_and, if_true, BitVec.toInt_eq_toNat_cond, Nat.add_sub_cancel]
    have := f.isLt
    have h2 : 2 ^ (k + 1) = 2 * 2 ^ k := by ring
    push_cast
    split <;> split <;> omega
  · simp [h]

theorem fget_toNat (W off w : Nat) (wi : RegWord) :
    (fget (regPart W wi) off w).toNat = fieldNat W off w wi := by
  simp [fget, regPart, fieldNat, Nat.shiftRight_eq_div_pow]

theorem fieldInt_bounds {w : Nat} (sgn : Bit) (f : BitVec w) :
    -(2 ^ (w - 1) : Int) ≤ fieldInt sgn f ∧ fieldInt sgn f < 2 ^ w := by
  unfold fieldInt
  split
  · have h1 := BitVec.le_toInt f
    have h2 := BitVec.toInt_lt (x := f)
    refine ⟨h1, lt_of_lt_of_le h2 ?_⟩
    exact pow_le_pow_right₀ (by norm_num) (by omega)
  · have := f.isLt
    constructor
    · have : (0 : Int) ≤ 2 ^ (w - 1) := by positivity
      omega
    · exact_mod_cast this

theorem tc80_toInt {v : Int} (h1 : -(2 ^ 79 : Int) ≤ v) (h2 : v < 2 ^ 79) : (tc80 v).toInt = v := by
  rw [tc80, BitVec.toInt_ofInt]
  exact Int.bmod_eq_of_le (by omega) (by omega)

/-- 40_field_codec.md R123: every unpacked value fits the 80-bit port. -/
theorem unpackValue_toInt (W : RegWidth) (sgn : Bit) (width off : Nat) (wi : RegWord)
    (h1 : 1 ≤ width) (h2 : width ≤ 40) :
    (unpackValue W sgn width off wi).toInt = valueOf sgn width (fieldNat W.bits off width wi) := by
  have hb := fieldInt_bounds sgn (fget (regPart W.bits wi) off width)
  have p1 : (2 : Int) ^ (width - 1) ≤ 2 ^ 39 := pow_le_pow_right₀ (by norm_num) (by omega)
  have p2 : (2 : Int) ^ width ≤ 2 ^ 40 := pow_le_pow_right₀ (by norm_num) h2
  rw [unpackValue, tc80_toInt (by omega) (by omega), valueOf_eq_fieldInt h1, fget_toNat]

/-- 43_measurement.md R189: a product of a field of at most 40 bits and a scale below 2^36 never wraps. -/
theorem scaled_toInt {w : Nat} (h1 : 1 ≤ w) (h2 : w ≤ 40) (sgn : Bit) (f : BitVec w) (k : Nat) (hk : k < 2 ^ 36) :
    (scaled sgn f k).toInt = valueOf sgn w f.toNat * k := by
  have hb := fieldInt_bounds sgn f
  have p1 : (2 : Int) ^ (w - 1) ≤ 2 ^ 39 := pow_le_pow_right₀ (by norm_num) (by omega)
  have p2 : (2 : Int) ^ w ≤ 2 ^ 40 := pow_le_pow_right₀ (by norm_num) h2
  have hk' : (k : Int) < 2 ^ 36 := by exact_mod_cast hk
  have k0 : (0 : Int) ≤ k := by positivity
  rw [scaled, tc80_toInt (by nlinarith) (by nlinarith), valueOf_eq_fieldInt h1]

theorem inRange_iff (sgn : Bit) (width : Nat) (vi : Value) :
    inRange sgn width (packValue sgn vi) = true ↔ InRange sgn width vi := by
  unfold inRange packValue fieldInt InRange
  rcases (by decide : ∀ b : Bit, b = 0#1 ∨ b = 1#1) sgn with rfl | rfl
  · simp
    constructor
    · intro h; zify; omega
    · intro h; zify at h; omega
  · simp

theorem fmask_getLsbD (W off w i : Nat) :
    (fmask W off w).getLsbD i = decide (i < W ∧ off ≤ i ∧ i < off + w) := by
  rw [fmask, BitVec.getLsbD_ofNat, Nat.testBit_shiftLeft, Nat.testBit_two_pow_sub_one]
  by_cases h1 : i < W <;> by_cases h2 : off ≤ i <;> simp [h1, h2] <;> omega

/-- 40_field_codec.md R125: the word of a pack, bit by bit. -/
theorem packWord_packed (W : RegWidth) (sgn : Bit) (width off : Nat) (wi : RegWord) (vi : Value)
    (h2 : width ≤ 40) (h3 : off + width ≤ W.bits) :
    Packed W.bits off width wi vi (packWord W width off wi (packValue sgn vi)) := by
  have hW : W.bits ≤ 40 := by cases W <;> decide
  have ht : truncTo width (packValue sgn vi) = vi.setWidth width := by
    unfold truncTo packValue fieldInt
    split
    · apply BitVec.eq_of_toInt_eq
      rw [BitVec.toInt_ofInt, BitVec.toInt_setWidth, BitVec.toInt_eq_toNat_bmod, Int.bmod_bmod_of_dvd]
      exact_mod_cast pow_dvd_pow 2 (by omega : width ≤ 80)
    · apply BitVec.eq_of_toNat_eq
      simp
  intro i hi
  rw [packWord, ht, zext40, fput, BitVec.getLsbD_setWidth, BitVec.getLsbD_or, BitVec.getLsbD_and,
    BitVec.getLsbD_not, fmask_getLsbD, BitVec.getLsbD_shiftLeft, BitVec.getLsbD_setWidth,
    BitVec.getLsbD_setWidth, regPart, BitVec.getLsbD_setWidth]
  by_cases b : off ≤ i <;> by_cases c : i < off + width
  · have a : i < W.bits := by omega
    have d : i - off < width := by omega
    have e : i - off < W.bits := by omega
    simp [a, b, c, d, e, hi]
  all_goals by_cases a : i < W.bits <;> simp [a, b, c, hi] <;> omega

theorem ofCode_bits {rw : BitVec 2} (h : rw ≠ 3#2) : ∃ W, RegWidth.ofCode rw = some W ∧ W.bits = regBits rw := by
  rcases (by decide : ∀ r : BitVec 2, r = 0#2 ∨ r = 1#2 ∨ r = 2#2 ∨ r = 3#2) rw with rfl | rfl | rfl | rfl
  · exact ⟨.w16, rfl, rfl⟩
  · exact ⟨.w24, rfl, rfl⟩
  · exact ⟨.w40, rfl, rfl⟩
  · exact absurd rfl h

/-- 40_field_codec.md R121. -/
theorem descWidth_legal {rw : BitVec 2} {width off : BitVec 6} (h : LegalDesc rw width.toNat off.toNat) :
    ∃ W, descWidth rw width off = some W ∧ W.bits = regBits rw := by
  obtain ⟨hr, h1, h2, h3⟩ := h
  obtain ⟨W, hW, hb⟩ := ofCode_bits hr
  refine ⟨W, ?_, hb⟩
  simp only [descWidth, hW]
  rw [if_pos (by omega)]

theorem descWidth_illegal {rw : BitVec 2} {width off : BitVec 6} (h : ¬LegalDesc rw width.toNat off.toNat) :
    descWidth rw width off = none := by
  by_cases hr : rw = 3#2
  · subst hr; rfl
  · obtain ⟨W, hW, hb⟩ := ofCode_bits hr
    simp only [descWidth, hW]
    exact if_neg fun g => h ⟨hr, g.1, g.2.1, hb ▸ g.2.2⟩

end Sys2Proof.Machine
end

