-- ==== Sys2Proof/Laws/RegMap.lean ====
section
/-! SUPPORT. What a lookup in the Register Map can answer (10_state.md R30, R46). -/

namespace Sys2Proof.Machine

theorem rmapLookup_mem {addr : RegAddr} {r : RegRecord} (h : rmapLookup addr = some r) :
    r ∈ regTable ∧ r.addr = addr :=
  ⟨List.mem_of_find?_eq_some h, by simpa using List.find?_some h⟩

/-- 10_state.md R30: every field of the map is legal. -/
theorem regTable_legal : ∀ r ∈ regTable, ∀ d ∈ r.fields,
    1 ≤ d.width.toNat ∧ d.width.toNat ≤ 40 ∧ d.off.toNat + d.width.toNat ≤ r.rw.bits := by decide

/-- 10_state.md R30: the fields of a register never overlap, most significant first. -/
theorem regTable_disjoint : ∀ r ∈ regTable,
    r.fields.Pairwise (fun d e => e.off.toNat + e.width.toNat ≤ d.off.toNat) := by decide

/-- The two masks of `diagnostic_flags` are the bits of its fields (10_state.md R42). -/
theorem diag_masks : diagCfgMask ||| diagStsMask = regPart 16 recDiagFlags.usedMask ∧
    diagCfgMask &&& diagStsMask = 0#16 ∧ recDiagFlags.reservedMask = 0x0100#40 := by decide

/-- 10_state.md R48: the reserved bits, register by register. -/
theorem regTable_reserved : regTable.map (fun r => (r.addr.toNat, r.reservedMask.toNat)) =
    [(0x00, 0x000F), (0x01, 0), (0x02, 0x8000), (0x03, 0xC000), (0x04, 0xF), (0x05, 0xF), (0x06, 0), (0x07, 0xF),
     (0x08, 0), (0x09, 0), (0x0A, 0), (0x0B, 0x0100), (0x0C, 0), (0x0D, 0), (0x0E, 0), (0x0F, 0), (0x10, 0),
     (0x11, 0), (0x3E, 0), (0x3F, 0)] := by decide

theorem mapField_some {addr : RegAddr} {idx : BitVec 4} {W : RegWidth} {d : FieldDesc}
    (h : mapField addr idx = some (W, d)) :
    ∃ r, rmapLookup addr = some r ∧ r.fields[idx.toNat]? = some d ∧ W = r.rw := by
  unfold mapField at h
  split at h
  · cases h
  · next r hr =>
    cases hd : r.fields[idx.toNat]? with
    | none => simp [hd] at h
    | some e =>
      simp only [hd, Option.map_some, Option.some.injEq, Prod.mk.injEq] at h
      exact ⟨r, hr, by rw [hd, h.2], h.1.symm⟩

theorem mapField_legal {addr : RegAddr} {idx : BitVec 4} {W : RegWidth} {d : FieldDesc}
    (h : mapField addr idx = some (W, d)) :
    1 ≤ d.width.toNat ∧ d.width.toNat ≤ 40 ∧ d.off.toNat + d.width.toNat ≤ W.bits := by
  obtain ⟨r, hr, hd, rfl⟩ := mapField_some h
  exact regTable_legal r (rmapLookup_mem hr).1 d (List.mem_of_getElem? hd)

end Sys2Proof.Machine
end

