-- ==== Sys2Proof/Laws/State.lean ====
section
/-! SUPPORT. What each named update of the state leaves in each field. -/

namespace Sys2Proof.Machine

@[simp] theorem setStrict_strict (s : State) (b : Bit) : (s.setStrict b).strict = b := rfl
@[simp] theorem setStrict_calValid (s : State) (b : Bit) : (s.setStrict b).calValid = s.calValid := rfl
@[simp] theorem setStrict_shuntCal (s : State) (b : Bit) : (s.setStrict b).shuntCal = s.shuntCal := rfl
@[simp] theorem setStrict_tempco (s : State) (b : Bit) : (s.setStrict b).tempco = s.tempco := rfl
@[simp] theorem setStrict_curLsb (s : State) (b : Bit) : (s.setStrict b).curLsb = s.curLsb := rfl
@[simp] theorem setStrict_pwrLsb (s : State) (b : Bit) : (s.setStrict b).pwrLsb = s.pwrLsb := rfl
@[simp] theorem setStrict_inp (s : State) (b : Bit) : (s.setStrict b).inp = s.inp := rfl
@[simp] theorem setStrict_out (s : State) (b : Bit) : (s.setStrict b).out = s.out := rfl
@[simp] theorem setStrict_dev (s : State) (b : Bit) : (s.setStrict b).dev = s.dev := rfl
@[simp] theorem setStrict_draws (s : State) (b : Bit) : (s.setStrict b).draws = s.draws := rfl

@[simp] theorem loadCal_strict (s : State) (k : CalIn) : (s.loadCal k).strict = s.strict := rfl
@[simp] theorem loadCal_calValid (s : State) (k : CalIn) : (s.loadCal k).calValid = 1#1 := rfl
@[simp] theorem loadCal_shuntCal (s : State) (k : CalIn) : (s.loadCal k).shuntCal = some k.shuntCal := rfl
@[simp] theorem loadCal_tempco (s : State) (k : CalIn) : (s.loadCal k).tempco = some k.tempco := rfl
@[simp] theorem loadCal_curLsb (s : State) (k : CalIn) : (s.loadCal k).curLsb = some k.curLsb := rfl
@[simp] theorem loadCal_pwrLsb (s : State) (k : CalIn) : (s.loadCal k).pwrLsb = some k.pwrLsb := rfl
@[simp] theorem loadCal_inp (s : State) (k : CalIn) : (s.loadCal k).inp = s.inp := rfl
@[simp] theorem loadCal_out (s : State) (k : CalIn) : (s.loadCal k).out = s.out := rfl
@[simp] theorem loadCal_dev (s : State) (k : CalIn) : (s.loadCal k).dev = s.dev := rfl
@[simp] theorem loadCal_draws (s : State) (k : CalIn) : (s.loadCal k).draws = s.draws := rfl

@[simp] theorem dropCal_strict (s : State) : (s.dropCal).strict = s.strict := rfl
@[simp] theorem dropCal_calValid (s : State) : (s.dropCal).calValid = 0#1 := rfl
@[simp] theorem dropCal_shuntCal (s : State) : (s.dropCal).shuntCal = none := rfl
@[simp] theorem dropCal_tempco (s : State) : (s.dropCal).tempco = none := rfl
@[simp] theorem dropCal_curLsb (s : State) : (s.dropCal).curLsb = none := rfl
@[simp] theorem dropCal_pwrLsb (s : State) : (s.dropCal).pwrLsb = none := rfl
@[simp] theorem dropCal_inp (s : State) : (s.dropCal).inp = s.inp := rfl
@[simp] theorem dropCal_out (s : State) : (s.dropCal).out = s.out := rfl
@[simp] theorem dropCal_dev (s : State) : (s.dropCal).dev = s.dev := rfl
@[simp] theorem dropCal_draws (s : State) : (s.dropCal).draws = s.draws := rfl

@[simp] theorem drive_strict (s : State) (o : Outputs) : (s.drive o).strict = s.strict := rfl
@[simp] theorem drive_calValid (s : State) (o : Outputs) : (s.drive o).calValid = s.calValid := rfl
@[simp] theorem drive_shuntCal (s : State) (o : Outputs) : (s.drive o).shuntCal = s.shuntCal := rfl
@[simp] theorem drive_tempco (s : State) (o : Outputs) : (s.drive o).tempco = s.tempco := rfl
@[simp] theorem drive_curLsb (s : State) (o : Outputs) : (s.drive o).curLsb = s.curLsb := rfl
@[simp] theorem drive_pwrLsb (s : State) (o : Outputs) : (s.drive o).pwrLsb = s.pwrLsb := rfl
@[simp] theorem drive_inp (s : State) (o : Outputs) : (s.drive o).inp = s.inp := rfl
@[simp] theorem drive_out (s : State) (o : Outputs) : (s.drive o).out = o := rfl
@[simp] theorem drive_dev (s : State) (o : Outputs) : (s.drive o).dev = s.dev := rfl
@[simp] theorem drive_draws (s : State) (o : Outputs) : (s.drive o).draws = s.draws := rfl

@[simp] theorem present_strict (s : State) (p : Inputs) : (s.present p).strict = s.strict := rfl
@[simp] theorem present_calValid (s : State) (p : Inputs) : (s.present p).calValid = s.calValid := rfl
@[simp] theorem present_shuntCal (s : State) (p : Inputs) : (s.present p).shuntCal = s.shuntCal := rfl
@[simp] theorem present_tempco (s : State) (p : Inputs) : (s.present p).tempco = s.tempco := rfl
@[simp] theorem present_curLsb (s : State) (p : Inputs) : (s.present p).curLsb = s.curLsb := rfl
@[simp] theorem present_pwrLsb (s : State) (p : Inputs) : (s.present p).pwrLsb = s.pwrLsb := rfl
@[simp] theorem present_inp (s : State) (p : Inputs) : (s.present p).inp = p := rfl
@[simp] theorem present_out (s : State) (p : Inputs) : (s.present p).out = s.out := rfl
@[simp] theorem present_dev (s : State) (p : Inputs) : (s.present p).dev = s.dev := rfl
@[simp] theorem present_draws (s : State) (p : Inputs) : (s.present p).draws = s.draws := rfl

@[simp] theorem setDev_strict (s : State) (m : Memory) : (s.setDev m).strict = s.strict := rfl
@[simp] theorem setDev_calValid (s : State) (m : Memory) : (s.setDev m).calValid = s.calValid := rfl
@[simp] theorem setDev_shuntCal (s : State) (m : Memory) : (s.setDev m).shuntCal = s.shuntCal := rfl
@[simp] theorem setDev_tempco (s : State) (m : Memory) : (s.setDev m).tempco = s.tempco := rfl
@[simp] theorem setDev_curLsb (s : State) (m : Memory) : (s.setDev m).curLsb = s.curLsb := rfl
@[simp] theorem setDev_pwrLsb (s : State) (m : Memory) : (s.setDev m).pwrLsb = s.pwrLsb := rfl
@[simp] theorem setDev_inp (s : State) (m : Memory) : (s.setDev m).inp = s.inp := rfl
@[simp] theorem setDev_out (s : State) (m : Memory) : (s.setDev m).out = s.out := rfl
@[simp] theorem setDev_dev (s : State) (m : Memory) : (s.setDev m).dev = m := rfl
@[simp] theorem setDev_draws (s : State) (m : Memory) : (s.setDev m).draws = s.draws := rfl

@[simp] theorem countDraw_strict (s : State) : (s.countDraw).strict = s.strict := rfl
@[simp] theorem countDraw_calValid (s : State) : (s.countDraw).calValid = s.calValid := rfl
@[simp] theorem countDraw_shuntCal (s : State) : (s.countDraw).shuntCal = s.shuntCal := rfl
@[simp] theorem countDraw_tempco (s : State) : (s.countDraw).tempco = s.tempco := rfl
@[simp] theorem countDraw_curLsb (s : State) : (s.countDraw).curLsb = s.curLsb := rfl
@[simp] theorem countDraw_pwrLsb (s : State) : (s.countDraw).pwrLsb = s.pwrLsb := rfl
@[simp] theorem countDraw_inp (s : State) : (s.countDraw).inp = s.inp := rfl
@[simp] theorem countDraw_out (s : State) : (s.countDraw).out = s.out := rfl
@[simp] theorem countDraw_dev (s : State) : (s.countDraw).dev = s.dev := rfl
@[simp] theorem countDraw_draws (s : State) : (s.countDraw).draws = s.draws + 1 := rfl

@[simp] theorem blockReset_strict (s : State) : (s.blockReset).strict = 1#1 := rfl
@[simp] theorem blockReset_calValid (s : State) : (s.blockReset).calValid = 0#1 := rfl
@[simp] theorem blockReset_shuntCal (s : State) : (s.blockReset).shuntCal = none := rfl
@[simp] theorem blockReset_tempco (s : State) : (s.blockReset).tempco = none := rfl
@[simp] theorem blockReset_curLsb (s : State) : (s.blockReset).curLsb = none := rfl
@[simp] theorem blockReset_pwrLsb (s : State) : (s.blockReset).pwrLsb = none := rfl
@[simp] theorem blockReset_inp (s : State) : (s.blockReset).inp = s.inp := rfl
@[simp] theorem blockReset_out (s : State) : (s.blockReset).out = {} := rfl
@[simp] theorem blockReset_dev (s : State) : (s.blockReset).dev = s.dev := rfl
@[simp] theorem blockReset_draws (s : State) : (s.blockReset).draws = s.draws := rfl

@[simp] theorem presentRead_strict (s : State) (w : RegWord) : (s.presentRead w).strict = s.strict := rfl
@[simp] theorem presentRead_calValid (s : State) (w : RegWord) : (s.presentRead w).calValid = s.calValid := rfl
@[simp] theorem presentRead_shuntCal (s : State) (w : RegWord) : (s.presentRead w).shuntCal = s.shuntCal := rfl
@[simp] theorem presentRead_tempco (s : State) (w : RegWord) : (s.presentRead w).tempco = s.tempco := rfl
@[simp] theorem presentRead_curLsb (s : State) (w : RegWord) : (s.presentRead w).curLsb = s.curLsb := rfl
@[simp] theorem presentRead_pwrLsb (s : State) (w : RegWord) : (s.presentRead w).pwrLsb = s.pwrLsb := rfl
@[simp] theorem presentRead_inp (s : State) (w : RegWord) : (s.presentRead w).inp = { s.inp with wi := w, xerr := 0#1 } := rfl
@[simp] theorem presentRead_out (s : State) (w : RegWord) : (s.presentRead w).out = s.out := rfl
@[simp] theorem presentRead_dev (s : State) (w : RegWord) : (s.presentRead w).dev = s.dev := rfl
@[simp] theorem presentRead_draws (s : State) (w : RegWord) : (s.presentRead w).draws = s.draws := rfl

@[simp] theorem presentFailure_strict (s : State) (c : BitVec 8) : (s.presentFailure c).strict = s.strict := rfl
@[simp] theorem presentFailure_calValid (s : State) (c : BitVec 8) : (s.presentFailure c).calValid = s.calValid := rfl
@[simp] theorem presentFailure_shuntCal (s : State) (c : BitVec 8) : (s.presentFailure c).shuntCal = s.shuntCal := rfl
@[simp] theorem presentFailure_tempco (s : State) (c : BitVec 8) : (s.presentFailure c).tempco = s.tempco := rfl
@[simp] theorem presentFailure_curLsb (s : State) (c : BitVec 8) : (s.presentFailure c).curLsb = s.curLsb := rfl
@[simp] theorem presentFailure_pwrLsb (s : State) (c : BitVec 8) : (s.presentFailure c).pwrLsb = s.pwrLsb := rfl
@[simp] theorem presentFailure_inp (s : State) (c : BitVec 8) : (s.presentFailure c).inp = { s.inp with xerr := 1#1, xinfo := c } := rfl
@[simp] theorem presentFailure_out (s : State) (c : BitVec 8) : (s.presentFailure c).out = s.out := rfl
@[simp] theorem presentFailure_dev (s : State) (c : BitVec 8) : (s.presentFailure c).dev = s.dev := rfl
@[simp] theorem presentFailure_draws (s : State) (c : BitVec 8) : (s.presentFailure c).draws = s.draws := rfl

@[simp] theorem presentWord_strict (s : State) (c : CmdWord) : (s.presentWord c).strict = s.strict := rfl
@[simp] theorem presentWord_calValid (s : State) (c : CmdWord) : (s.presentWord c).calValid = s.calValid := rfl
@[simp] theorem presentWord_shuntCal (s : State) (c : CmdWord) : (s.presentWord c).shuntCal = s.shuntCal := rfl
@[simp] theorem presentWord_tempco (s : State) (c : CmdWord) : (s.presentWord c).tempco = s.tempco := rfl
@[simp] theorem presentWord_curLsb (s : State) (c : CmdWord) : (s.presentWord c).curLsb = s.curLsb := rfl
@[simp] theorem presentWord_pwrLsb (s : State) (c : CmdWord) : (s.presentWord c).pwrLsb = s.pwrLsb := rfl
@[simp] theorem presentWord_inp (s : State) (c : CmdWord) : (s.presentWord c).inp = { s.inp with rst := 0#1, cmd := c } := rfl
@[simp] theorem presentWord_out (s : State) (c : CmdWord) : (s.presentWord c).out = s.out := rfl
@[simp] theorem presentWord_dev (s : State) (c : CmdWord) : (s.presentWord c).dev = s.dev := rfl
@[simp] theorem presentWord_draws (s : State) (c : CmdWord) : (s.presentWord c).draws = s.draws := rfl

@[simp] theorem withTransport_strict (s : State) (wi : RegWord) (e : Bit) (x : BitVec 8) : (s.withTransport wi e x).strict = s.strict := rfl
@[simp] theorem withTransport_calValid (s : State) (wi : RegWord) (e : Bit) (x : BitVec 8) : (s.withTransport wi e x).calValid = s.calValid := rfl
@[simp] theorem withTransport_shuntCal (s : State) (wi : RegWord) (e : Bit) (x : BitVec 8) : (s.withTransport wi e x).shuntCal = s.shuntCal := rfl
@[simp] theorem withTransport_tempco (s : State) (wi : RegWord) (e : Bit) (x : BitVec 8) : (s.withTransport wi e x).tempco = s.tempco := rfl
@[simp] theorem withTransport_curLsb (s : State) (wi : RegWord) (e : Bit) (x : BitVec 8) : (s.withTransport wi e x).curLsb = s.curLsb := rfl
@[simp] theorem withTransport_pwrLsb (s : State) (wi : RegWord) (e : Bit) (x : BitVec 8) : (s.withTransport wi e x).pwrLsb = s.pwrLsb := rfl
@[simp] theorem withTransport_inp (s : State) (wi : RegWord) (e : Bit) (x : BitVec 8) : (s.withTransport wi e x).inp = { s.inp with wi := wi, xerr := e, xinfo := x } := rfl
@[simp] theorem withTransport_out (s : State) (wi : RegWord) (e : Bit) (x : BitVec 8) : (s.withTransport wi e x).out = s.out := rfl
@[simp] theorem withTransport_dev (s : State) (wi : RegWord) (e : Bit) (x : BitVec 8) : (s.withTransport wi e x).dev = s.dev := rfl
@[simp] theorem withTransport_draws (s : State) (wi : RegWord) (e : Bit) (x : BitVec 8) : (s.withTransport wi e x).draws = s.draws := rfl

/-! Knowing a register's word changes the device's bytes alone. -/

@[simp] theorem holdWord_strict (s : State) (r : RegRecord) (w : RegWord) : (s.holdWord r w).strict = s.strict := rfl
@[simp] theorem holdWord_calValid (s : State) (r : RegRecord) (w : RegWord) : (s.holdWord r w).calValid = s.calValid := rfl
@[simp] theorem holdWord_shuntCal (s : State) (r : RegRecord) (w : RegWord) : (s.holdWord r w).shuntCal = s.shuntCal := rfl
@[simp] theorem holdWord_tempco (s : State) (r : RegRecord) (w : RegWord) : (s.holdWord r w).tempco = s.tempco := rfl
@[simp] theorem holdWord_curLsb (s : State) (r : RegRecord) (w : RegWord) : (s.holdWord r w).curLsb = s.curLsb := rfl
@[simp] theorem holdWord_pwrLsb (s : State) (r : RegRecord) (w : RegWord) : (s.holdWord r w).pwrLsb = s.pwrLsb := rfl
@[simp] theorem holdWord_inp (s : State) (r : RegRecord) (w : RegWord) : (s.holdWord r w).inp = s.inp := rfl
@[simp] theorem holdWord_out (s : State) (r : RegRecord) (w : RegWord) : (s.holdWord r w).out = s.out := rfl
@[simp] theorem holdWord_draws (s : State) (r : RegRecord) (w : RegWord) : (s.holdWord r w).draws = s.draws := rfl
@[simp] theorem holdWord_dev (s : State) (r : RegRecord) (w : RegWord) : (s.holdWord r w).dev =
    Memory.setBytes s.dev (busKey r.addr 0) (bytesOfWord (w &&& keptBits r) r.rw.bytes) := rfl

@[simp] theorem learnWord_strict (s : State) (r : RegRecord) (w : RegWord) : (s.learnWord r w).strict = s.strict := by
  unfold State.learnWord; split <;> rfl
@[simp] theorem learnWord_calValid (s : State) (r : RegRecord) (w : RegWord) : (s.learnWord r w).calValid = s.calValid := by
  unfold State.learnWord; split <;> rfl
@[simp] theorem learnWord_shuntCal (s : State) (r : RegRecord) (w : RegWord) : (s.learnWord r w).shuntCal = s.shuntCal := by
  unfold State.learnWord; split <;> rfl
@[simp] theorem learnWord_tempco (s : State) (r : RegRecord) (w : RegWord) : (s.learnWord r w).tempco = s.tempco := by
  unfold State.learnWord; split <;> rfl
@[simp] theorem learnWord_curLsb (s : State) (r : RegRecord) (w : RegWord) : (s.learnWord r w).curLsb = s.curLsb := by
  unfold State.learnWord; split <;> rfl
@[simp] theorem learnWord_pwrLsb (s : State) (r : RegRecord) (w : RegWord) : (s.learnWord r w).pwrLsb = s.pwrLsb := by
  unfold State.learnWord; split <;> rfl
@[simp] theorem learnWord_inp (s : State) (r : RegRecord) (w : RegWord) : (s.learnWord r w).inp = s.inp := by
  unfold State.learnWord; split <;> rfl
@[simp] theorem learnWord_out (s : State) (r : RegRecord) (w : RegWord) : (s.learnWord r w).out = s.out := by
  unfold State.learnWord; split <;> rfl
@[simp] theorem learnWord_draws (s : State) (r : RegRecord) (w : RegWord) : (s.learnWord r w).draws = s.draws := by
  unfold State.learnWord; split <;> rfl

end Sys2Proof.Machine
end

