-- ==== Sys2Proof/Laws/Memory.lean ====
section
/-! SUPPORT. The laws of the device register file: reading after writing, and the canonical form that every
memory operation keeps. -/

namespace Sys2Proof.Machine

theorem Memory.get_set_same (m : Memory) (key : Nat) (v : Byte) :
    Memory.get (Memory.set m key v) key = some v := by
  induction m with
  | nil => simp [Memory.set, Memory.get]
  | cons c m ih =>
    obtain ⟨a, b⟩ := c
    unfold Memory.set
    split
    · simp [Memory.get]
    · split
      · simp [Memory.get]
      · next h => simp [Memory.get, Ne.symm h, ih]

theorem Memory.get_set_other (m : Memory) {key key' : Nat} (h : key ≠ key') (v : Byte) :
    Memory.get (Memory.set m key v) key' = Memory.get m key' := by
  induction m with
  | nil => simp [Memory.set, Memory.get, h]
  | cons c m ih =>
    obtain ⟨a, b⟩ := c
    unfold Memory.set
    split
    · simp [Memory.get, h]
    · split
      · next e => subst e; simp [Memory.get, h]
      · simp [Memory.get, ih]

theorem Memory.get_setBytes_outside (bs : List Byte) (m : Memory) (key : Nat) {k : Nat}
    (h : k < key ∨ key + bs.length ≤ k) : Memory.get (Memory.setBytes m key bs) k = Memory.get m k := by
  induction bs generalizing m key with
  | nil => rfl
  | cons b bs ih =>
    simp only [List.length_cons] at h
    rw [Memory.setBytes, ih _ _ (by omega), Memory.get_set_other _ (by omega)]

/-- Bytes written are the bytes read back. -/
theorem Memory.getBytes_setBytes (bs : List Byte) (m : Memory) (key : Nat) :
    Memory.getBytes (Memory.setBytes m key bs) key bs.length = some bs := by
  induction bs generalizing m key with
  | nil => rfl
  | cons b bs ih =>
    have h : Memory.get (Memory.setBytes (Memory.set m key b) (key + 1) bs) key = some b := by
      rw [Memory.get_setBytes_outside _ _ _ (by omega), Memory.get_set_same]
    simp only [List.length_cons, Memory.getBytes, Memory.setBytes, h, ih]

@[simp] theorem bytesOfWord_length (w : RegWord) (n : Nat) : (bytesOfWord w n).length = n := by
  induction n with
  | zero => rfl
  | succ n ih => simp [bytesOfWord, ih]

/-- Byte `k` on the bus of a word, as a shift (20_memory.md R64). -/
theorem bytesOfWord_getElem? (w : RegWord) (n k : Nat) (h : k < n) :
    (bytesOfWord w n)[k]? = some ((w >>> (8 * (n - 1 - k))).setWidth 8) := by
  induction n generalizing k with
  | zero => omega
  | succ n ih =>
    cases k with
    | zero => simp [bytesOfWord]
    | succ k =>
      rw [bytesOfWord, List.getElem?_cons_succ, ih k (by omega), show n - 1 - k = n + 1 - 1 - (k + 1) by omega]

/-- The canonical form as a statement: rising keys, each cell a held one. -/
theorem Memory.wf_iff (m : Memory) :
    Memory.wf m = true ↔ m.Pairwise (fun c d => c.1 < d.1) ∧ ∀ c ∈ m, isHeldCell c = true := by
  have hr : ∀ m : Memory, Memory.rising m = true ↔ m.IsChain (fun c d => c.1 < d.1) := by
    intro m
    induction m with
    | nil => simp [Memory.rising]
    | cons c m ih =>
      cases m with
      | nil => simp [Memory.rising]
      | cons d m => simp [Memory.rising, ih]
  have ht : IsTrans Host.Cell (fun c d => c.1 < d.1) := ⟨fun _ _ _ h1 h2 => Nat.lt_trans h1 h2⟩
  rw [Memory.wf, Bool.and_eq_true, hr, List.isChain_iff_pairwise, List.all_eq_true]

theorem Memory.mem_set {m : Memory} {key : Nat} {v : Byte} {c : Host.Cell} (h : c ∈ Memory.set m key v) :
    c = (key, v) ∨ c ∈ m := by
  induction m with
  | nil => simpa [Memory.set] using h
  | cons d m ih =>
    obtain ⟨a, b⟩ := d
    unfold Memory.set at h
    split at h
    · simpa using h
    · split at h
      · rcases List.mem_cons.mp h with h | h
        · exact .inl h
        · exact .inr (List.mem_cons_of_mem _ h)
      · rcases List.mem_cons.mp h with h | h
        · exact .inr (h ▸ List.mem_cons_self)
        · exact (ih h).imp_right (List.mem_cons_of_mem _)

theorem Memory.set_wf {m : Memory} (h : Memory.wf m = true) {key : Nat} {v : Byte}
    (hk : isHeldCell (key, v) = true) : Memory.wf (Memory.set m key v) = true := by
  rw [Memory.wf_iff] at h ⊢
  refine ⟨?_, fun c hc => ?_⟩
  · obtain ⟨hp, -⟩ := h
    induction m with
    | nil => simp [Memory.set]
    | cons d m ih =>
      obtain ⟨a, b⟩ := d
      obtain ⟨h1, h2⟩ := List.pairwise_cons.mp hp
      unfold Memory.set
      split
      · next hlt =>
        refine List.pairwise_cons.mpr ⟨fun e he => ?_, hp⟩
        rcases List.mem_cons.mp he with rfl | he
        · exact hlt
        · exact Nat.lt_trans hlt (h1 e he)
      · split
        · next e => subst e; exact List.pairwise_cons.mpr ⟨h1, h2⟩
        · refine List.pairwise_cons.mpr ⟨fun e he => ?_, ih h2⟩
          rcases Memory.mem_set he with rfl | he
          · show a < key; omega
          · exact h1 e he
  · rcases Memory.mem_set hc with rfl | hc
    · exact hk
    · exact h.2 c hc

theorem Memory.setBytes_wf (bs : List Byte) {m : Memory} (h : Memory.wf m = true) {key : Nat}
    (hk : ∀ i b, bs[i]? = some b → isHeldCell (key + i, b) = true) :
    Memory.wf (Memory.setBytes m key bs) = true := by
  induction bs generalizing m key with
  | nil => exact h
  | cons b bs ih =>
    refine ih (Memory.set_wf h (by simpa using hk 0 b rfl)) fun i c hi => ?_
    have := hk (i + 1) c (by simpa using hi)
    rwa [show key + (i + 1) = key + 1 + i by omega] at this

theorem Memory.forget_wf {m : Memory} (h : Memory.wf m = true) (addr : RegAddr) :
    Memory.wf (Memory.forget m addr) = true := by
  rw [Memory.wf_iff] at h ⊢
  exact ⟨h.1.filter _, fun c hc => h.2 c (List.mem_filter.mp hc).1⟩

/-- A byte of a word's kept bits is a held cell. -/
theorem isHeldCell_kept {r : RegRecord} (h : rmapLookup r.addr = some r) (ha : r.access ≠ .readOnly) (w : RegWord)
    {k : Nat} {b : Byte} (hb : (bytesOfWord (w &&& keptBits r) r.rw.bytes)[k]? = some b) :
    isHeldCell (busKey r.addr 0 + k, b) = true := by
  have hk : k < r.rw.bytes := by
    have := (List.getElem?_eq_some_iff.mp hb).1
    rwa [bytesOfWord_length] at this
  have h8 : r.rw.bytes ≤ 5 := by cases r.rw <;> decide
  have h1 : (busKey r.addr 0 + k) / 8 = r.addr.toNat := by unfold busKey; omega
  have h2 : (busKey r.addr 0 + k) % 8 = k := by unfold busKey; omega
  have hm : b &&& ~~~keptByte r k = 0#8 := by
    rw [bytesOfWord_getElem? _ _ _ hk, Option.some_inj] at hb
    rw [keptByte, List.getD_eq_getElem?_getD, bytesOfWord_getElem? _ _ _ hk, ← hb]
    ext i hi
    simp
  have h3 := r.addr.isLt
  simp only [isHeldCell, h1, h2, BitVec.ofNat_toNat, BitVec.setWidth_eq, h]
  exact decide_eq_true ⟨by omega, hk, ha, hm⟩

theorem holdWord_wf {s : State} {r : RegRecord} (h : rmapLookup r.addr = some r) (ha : r.access ≠ .readOnly)
    (w : RegWord) (hs : Memory.wf s.dev = true) : Memory.wf (s.holdWord r w).dev = true :=
  Memory.setBytes_wf _ hs fun _ _ hb => isHeldCell_kept h ha w hb

theorem learnWord_wf {s : State} {r : RegRecord} (h : rmapLookup r.addr = some r) (w : RegWord)
    (hs : Memory.wf s.dev = true) : Memory.wf (s.learnWord r w).dev = true := by
  unfold State.learnWord
  split
  · exact hs
  · next ha => exact holdWord_wf h (fun e => ha (.inl e)) w hs

/-- What is held of a register is listed. -/
theorem holdWord_getBytes (s : State) (r : RegRecord) (w : RegWord) :
    Memory.getBytes (s.holdWord r w).dev (busKey r.addr 0) r.rw.bytes =
      some (bytesOfWord (w &&& keptBits r) r.rw.bytes) := by
  have h := Memory.getBytes_setBytes (bytesOfWord (w &&& keptBits r) r.rw.bytes) s.dev (busKey r.addr 0)
  rwa [bytesOfWord_length] at h

/-- The device returns the kept bits of a known register as they are known (20_memory.md R77). -/
theorem deviceWord_kept {s : State} {r : RegRecord} {bs : List Byte}
    (h : Memory.getBytes s.dev (busKey r.addr 0) r.rw.bytes = some bs) :
    deviceWord s r &&& keptBits r = wordOfBytes bs &&& keptBits r := by
  simp only [deviceWord, h]
  refine BitVec.eq_of_getLsbD_eq fun i hi => ?_
  by_cases hk : (keptBits r)[i] <;> simp [hi, hk]

/-- A read makes known bytes of its own register only, and changes nothing but the device's bytes. -/
theorem learnWord_eq_setDev (s : State) (r : RegRecord) (w : RegWord) :
    ∃ m, s.learnWord r w = s.setDev m ∧
      ∀ key, key < busKey r.addr 0 ∨ busKey r.addr 0 + r.rw.bytes ≤ key → Memory.get m key = Memory.get s.dev key := by
  unfold State.learnWord
  split
  · exact ⟨s.dev, rfl, fun _ _ => rfl⟩
  · exact ⟨_, rfl, fun key hk => Memory.get_setBytes_outside _ _ _ (by rwa [bytesOfWord_length])⟩

/-- Everything a bus write can do: the device's bytes change, in canonical form, and nothing else. -/
theorem busWrite_cases {addr : RegAddr} {n : Nat} {w : RegWord} {failed : Bool} {s t : State}
    (h : busWrite addr n w failed s = .next t) :
    ∃ m, t = s.setDev m ∧ (Memory.wf s.dev = true → Memory.wf m = true) := by
  unfold busWrite withRegister at h
  split at h
  · cases h
  · next r hr =>
    split at h
    · dsimp only at h
      split at h
      · cases h
      · next ha =>
        split at h
        · cases h; exact ⟨[], rfl, fun _ => by decide⟩
        · split at h
          · cases h; exact ⟨_, rfl, fun hw => Memory.forget_wf hw addr⟩
          · cases h
            have hr' : rmapLookup r.addr = some r := (rmapLookup_mem hr).2.symm ▸ hr
            exact ⟨_, rfl, holdWord_wf hr' ha w⟩
    · cases h

/-- Everything a bus read can do: the ports `wi`, `xerr`, `xinfo` change, a draw may be used up, and what was read
may become known, in canonical form. -/
theorem busRead_cases {addr : RegAddr} {n : Nat} {failure : Option (BitVec 8)} {s t : State}
    (h : busRead addr n failure s = .next t) :
    (∃ code, failure = some code ∧ t = s.presentFailure code) ∨
    (∃ w m, failure = none ∧ t = ((s.setDev m).presentRead w).countDraw ∧
      (Memory.wf s.dev = true → Memory.wf m = true)) := by
  unfold busRead withRegister at h
  split at h
  · cases h
  · next r hr =>
    split at h
    · split at h
      · cases h; exact .inl ⟨_, rfl, rfl⟩
      · cases h
        have hr' : rmapLookup r.addr = some r := (rmapLookup_mem hr).2.symm ▸ hr
        obtain ⟨m, hm, -⟩ := learnWord_eq_setDev s r (deviceWord s r)
        have hw := learnWord_wf (s := s) hr' (deviceWord s r)
        rw [hm] at hw ⊢
        exact .inr ⟨_, m, rfl, rfl, hw⟩
    · cases h

end Sys2Proof.Machine
end

