-- ==== Sys2Proof/Laws/Ops.lean ====
section
/-! SUPPORT. For each shared operation, once, everything it can do. -/

namespace Sys2Proof.Machine

theorem bit_cases (b : Bit) : b = 0#1 ∨ b = 1#1 := (by decide : ∀ b : Bit, b = 0#1 ∨ b = 1#1) b

theorem complete_eq (o : Outputs) (s : State) :
    complete o s = .next (s.drive { o with flt := some 0#4, finfo := none }) := rfl

theorem raise_eq (f : CmdFault) (s : State) : raise f s = .next (s.drive f.outputs) := rfl

theorem consumeWi_good {s : State} (h : s.inp.xerr = 0#1) (k : RegWord → Result) : consumeWi s k = k s.inp.wi := by
  simp [consumeWi, h]

theorem consumeWi_failed {s : State} (h : s.inp.xerr = 1#1) (k : RegWord → Result) :
    consumeWi s k = raise (.transport s.inp.xinfo) s := by simp [consumeWi, h]

theorem withCal_present {w : Nat} {s : State} {r : Option (BitVec w)} {v : BitVec w} (h : s.calValid = 1#1)
    (hr : r = some v) (k : BitVec w → Result) : withCal s r k = k v := by simp [withCal, State.calReg, h, hr]

theorem withCal_stale {w : Nat} {s : State} (h : s.calValid = 0#1) (r : Option (BitVec w)) (k : BitVec w → Result) :
    withCal s r k = raise .staleCalibration s := by simp [withCal, State.calReg, h]

theorem checkRange_accepts {s : State} {sgn : Bit} {width : Nat} (h : InRange sgn width s.inp.vi ∨ s.strict = 0#1)
    (k : Int → Result) : checkRange s sgn width k = k (packValue sgn s.inp.vi) := by
  rw [← inRange_iff] at h
  unfold checkRange
  rw [if_neg]
  rintro ⟨h1, h2⟩
  rcases h with h | h
  · simp [h] at h1
  · simp [h] at h2

theorem checkRange_rejects {s : State} {sgn : Bit} {width : Nat} (h : ¬InRange sgn width s.inp.vi)
    (hs : s.strict = 1#1) (k : Int → Result) : checkRange s sgn width k = raise (.codecRange width) s := by
  rw [← inRange_iff] at h
  simp [checkRange, hs, h]

theorem withThreshold_inside {addr : RegAddr} (h1 : 0x0C ≤ addr.toNat) (h2 : addr.toNat ≤ 0x11) (s : State)
    (k : Result) : withThreshold addr s k = k := by
  have : isThreshold addr = true := decide_eq_true (by unfold Config.nThresh; omega)
  simp [withThreshold, this]

theorem withThreshold_outside {addr : RegAddr} (h : addr.toNat < 0x0C ∨ 0x11 < addr.toNat) (s : State) (k : Result) :
    withThreshold addr s k = raise (.badAddress addr) s := by
  have : isThreshold addr = false := decide_eq_false (by unfold Config.nThresh; omega)
  simp [withThreshold, this]

/-- The context a completed command leaves: only SETCAL, CLRCAL and SETCTL write it (10_state.md R26). -/
def contextAfter : Instr → State → State
  | .setcal, s => s.loadCal s.inp.ki
  | .clrcal, s => s.dropCal
  | .setctl b, s => s.setStrict b
  | _, s => s

/-- What a command can answer: a fault, or its completion over the context it leaves. -/
def Answers (i : Instr) (s : State) (r : Result) : Prop :=
  (∃ f : CmdFault, r = .next (s.drive f.outputs)) ∨
  (∃ o : Outputs, r = .next ((contextAfter i s).drive { o with flt := some 0#4, finfo := none }))

theorem answers_raise (i : Instr) (f : CmdFault) (s : State) : Answers i s (raise f s) := .inl ⟨f, rfl⟩

theorem answers_complete {i : Instr} {s : State} (h : contextAfter i s = s) (o : Outputs) :
    Answers i s (complete o s) := .inr ⟨o, by rw [h]; rfl⟩

theorem answers_consumeWi {i : Instr} {s : State} {k : RegWord → Result} (h : ∀ wi, Answers i s (k wi)) :
    Answers i s (consumeWi s k) := by
  unfold consumeWi; split
  · exact answers_raise ..
  · exact h _

theorem answers_withCal {i : Instr} {s : State} {w : Nat} {r : Option (BitVec w)} {k : BitVec w → Result}
    (h : ∀ v, Answers i s (k v)) : Answers i s (withCal s r k) := by
  unfold withCal; split
  · exact answers_raise ..
  · exact h _

theorem answers_checkRange {i : Instr} {s : State} {sgn : Bit} {w : Nat} {k : Int → Result}
    (h : ∀ v, Answers i s (k v)) : Answers i s (checkRange s sgn w k) := by
  unfold checkRange; split
  · exact answers_raise ..
  · exact h _

theorem answers_withThreshold {i : Instr} {s : State} {addr : RegAddr} {k : Result} (h : Answers i s k) :
    Answers i s (withThreshold addr s k) := by
  unfold withThreshold; split
  · exact h
  · exact answers_raise ..

theorem answers_withDescriptor {i : Instr} {s : State} {rw : BitVec 2} {width off : BitVec 6}
    {k : RegWidth → Result} (h : ∀ W, Answers i s (k W)) : Answers i s (withDescriptor rw width off s k) := by
  unfold withDescriptor; split
  · exact answers_raise ..
  · exact h _

theorem answers_withMapField {i : Instr} {s : State} {addr : RegAddr} {idx : BitVec 4}
    {k : RegWidth → FieldDesc → Result} (h : ∀ W d, Answers i s (k W d)) :
    Answers i s (withMapField addr idx s k) := by
  unfold withMapField; split
  · exact answers_raise ..
  · exact h _ _

theorem answers_unpackFrom {i : Instr} {s : State} {W : RegWidth} {sgn : Bit} {width off : Nat}
    (h : contextAfter i s = s) : Answers i s (unpackFrom W sgn width off s) :=
  answers_consumeWi fun _ => answers_complete h _

theorem answers_packInto {i : Instr} {s : State} {W : RegWidth} {sgn : Bit} {width off : Nat}
    (h : contextAfter i s = s) : Answers i s (packInto W sgn width off s) :=
  answers_consumeWi fun _ => answers_checkRange fun _ => answers_complete h _

theorem execNop_answers (s : State) :
    Answers .nop s (execNop s) := by
  unfold execNop
  exact answers_complete rfl _

theorem execUnpack_answers (rw : BitVec 2) (sgn : Bit) (width off : BitVec 6) (s : State) :
    Answers (.unpack rw sgn width off) s (execUnpack rw sgn width off s) := by
  unfold execUnpack
  exact answers_withDescriptor fun _ => answers_unpackFrom rfl

theorem execPack_answers (rw : BitVec 2) (sgn : Bit) (width off : BitVec 6) (s : State) :
    Answers (.pack rw sgn width off) s (execPack rw sgn width off s) := by
  unfold execPack
  exact answers_withDescriptor fun _ => answers_packInto rfl

theorem execRmap_answers (addr : RegAddr) (idx : BitVec 4) (s : State) :
    Answers (.rmap addr idx) s (execRmap addr idx s) := by
  unfold execRmap
  exact answers_complete rfl _

theorem execUnpackr_answers (addr : RegAddr) (idx : BitVec 4) (s : State) :
    Answers (.unpackr addr idx) s (execUnpackr addr idx s) := by
  unfold execUnpackr
  exact answers_withMapField fun _ _ => answers_unpackFrom rfl

theorem execPackr_answers (addr : RegAddr) (idx : BitVec 4) (s : State) :
    Answers (.packr addr idx) s (execPackr addr idx s) := by
  unfold execPackr
  exact answers_withMapField fun _ _ => answers_packInto rfl

theorem execEnccfg_answers (s : State) :
    Answers .enccfg s (execEnccfg s) := by
  unfold execEnccfg
  exact answers_complete rfl _

theorem execEncadc_answers (s : State) :
    Answers .encadc s (execEncadc s) := by
  unfold execEncadc
  exact answers_complete rfl _

theorem execDeccfg_answers (s : State) :
    Answers .deccfg s (execDeccfg s) := by
  unfold execDeccfg
  exact answers_consumeWi fun _ => answers_complete rfl _

theorem execDecadc_answers (s : State) :
    Answers .decadc s (execDecadc s) := by
  unfold execDecadc
  exact answers_consumeWi fun _ => answers_complete rfl _

theorem execMuxsel_answers (m : BitVec 4) (s : State) :
    Answers (.muxsel m) s (execMuxsel m s) := by
  unfold execMuxsel
  exact answers_complete rfl _

theorem execCtsel_answers (c : BitVec 3) (s : State) :
    Answers (.ctsel c) s (execCtsel c s) := by
  unfold execCtsel
  exact answers_complete rfl _

theorem execAvgsel_answers (a : BitVec 3) (s : State) :
    Answers (.avgsel a) s (execAvgsel a s) := by
  unfold execAvgsel
  exact answers_complete rfl _

theorem execRngsel_answers (r : Bit) (s : State) :
    Answers (.rngsel r) s (execRngsel r s) := by
  unfold execRngsel
  exact answers_complete rfl _

theorem execSetcal_answers (s : State) :
    Answers .setcal s (execSetcal s) := by
  unfold execSetcal
  exact .inr ⟨{}, rfl⟩

theorem execClrcal_answers (s : State) :
    Answers .clrcal s (execClrcal s) := by
  unfold execClrcal
  exact .inr ⟨{}, rfl⟩

theorem execSetctl_answers (b : Bit) (s : State) :
    Answers (.setctl b) s (execSetctl b s) := by
  unfold execSetctl
  exact .inr ⟨{}, rfl⟩

theorem execEnccal_answers (s : State) :
    Answers .enccal s (execEnccal s) := by
  unfold execEnccal
  exact answers_withCal fun _ => answers_complete rfl _

theorem execEnctco_answers (s : State) :
    Answers .enctco s (execEnctco s) := by
  unfold execEnctco
  exact answers_withCal fun _ => answers_complete rfl _

theorem execRdctx_answers (sel : BitVec 3) (s : State) :
    Answers (.rdctx sel) s (execRdctx sel s) := by
  unfold execRdctx
  repeat' split
  all_goals first
    | exact answers_withCal fun _ => answers_complete rfl _
    | exact answers_complete rfl _
    | exact answers_raise ..

theorem execDecvsh_answers (r : Bit) (s : State) :
    Answers (.decvsh r) s (execDecvsh r s) := by
  unfold execDecvsh
  exact answers_consumeWi fun _ => answers_complete rfl _

theorem execDecvbus_answers (s : State) :
    Answers .decvbus s (execDecvbus s) := by
  unfold execDecvbus
  exact answers_consumeWi fun _ => answers_complete rfl _

theorem execDectemp_answers (s : State) :
    Answers .dectemp s (execDectemp s) := by
  unfold execDectemp
  exact answers_consumeWi fun _ => answers_complete rfl _

theorem execDeccur_answers (s : State) :
    Answers .deccur s (execDeccur s) := by
  unfold execDeccur
  exact answers_consumeWi fun _ => answers_withCal fun _ => answers_complete rfl _

theorem execDecpwr_answers (s : State) :
    Answers .decpwr s (execDecpwr s) := by
  unfold execDecpwr
  exact answers_consumeWi fun _ => answers_withCal fun _ => answers_complete rfl _

theorem execDeceng_answers (s : State) :
    Answers .deceng s (execDeceng s) := by
  unfold execDeceng
  exact answers_consumeWi fun _ => answers_withCal fun _ => answers_complete rfl _

theorem execDecchg_answers (s : State) :
    Answers .decchg s (execDecchg s) := by
  unfold execDecchg
  exact answers_consumeWi fun _ => answers_withCal fun _ => answers_complete rfl _

theorem execDecflg_answers (s : State) :
    Answers .decflg s (execDecflg s) := by
  unfold execDecflg
  exact answers_consumeWi fun _ => answers_complete rfl _

theorem execEncalrt_answers (b : BitVec 4) (s : State) :
    Answers (.encalrt b) s (execEncalrt b s) := by
  unfold execEncalrt
  exact answers_complete rfl _

theorem execMaskalrt_answers (s : State) :
    Answers .maskalrt s (execMaskalrt s) := by
  unfold execMaskalrt
  exact answers_consumeWi fun _ => answers_complete rfl _

theorem execEncthr_answers (addr : RegAddr) (s : State) :
    Answers (.encthr addr) s (execEncthr addr s) := by
  unfold execEncthr
  exact answers_withThreshold (answers_checkRange fun _ => answers_complete rfl _)

theorem execDecthr_answers (addr : RegAddr) (s : State) :
    Answers (.decthr addr) s (execDecthr addr s) := by
  unfold execDecthr
  exact answers_withThreshold (answers_consumeWi fun _ => answers_complete rfl _)

/-- Every command, from every state, answers in one of the two ways. -/
theorem exec_answers (i : Instr) (s : State) : Answers i s (exec i s) := by
  cases i with
  | nop => exact execNop_answers s
  | unpack rw sgn width off => exact execUnpack_answers rw sgn width off s
  | pack rw sgn width off => exact execPack_answers rw sgn width off s
  | rmap addr idx => exact execRmap_answers addr idx s
  | unpackr addr idx => exact execUnpackr_answers addr idx s
  | packr addr idx => exact execPackr_answers addr idx s
  | enccfg => exact execEnccfg_answers s
  | encadc => exact execEncadc_answers s
  | deccfg => exact execDeccfg_answers s
  | decadc => exact execDecadc_answers s
  | muxsel m => exact execMuxsel_answers m s
  | ctsel c => exact execCtsel_answers c s
  | avgsel a => exact execAvgsel_answers a s
  | rngsel r => exact execRngsel_answers r s
  | setcal => exact execSetcal_answers s
  | clrcal => exact execClrcal_answers s
  | setctl b => exact execSetctl_answers b s
  | enccal => exact execEnccal_answers s
  | enctco => exact execEnctco_answers s
  | rdctx sel => exact execRdctx_answers sel s
  | decvsh r => exact execDecvsh_answers r s
  | decvbus => exact execDecvbus_answers s
  | dectemp => exact execDectemp_answers s
  | deccur => exact execDeccur_answers s
  | decpwr => exact execDecpwr_answers s
  | deceng => exact execDeceng_answers s
  | decchg => exact execDecchg_answers s
  | decflg => exact execDecflg_answers s
  | encalrt b => exact execEncalrt_answers b s
  | maskalrt => exact execMaskalrt_answers s
  | encthr addr => exact execEncthr_answers addr s
  | decthr addr => exact execDecthr_answers addr s

end Sys2Proof.Machine
end

