-- ==== Sys2Proof/Laws/PerInstr.lean ====
section
/-! SUPPORT. For every command: the decoder reads a well-formed command back from its word (30_encoding.md R101, R105).
-/

namespace Sys2Proof.Laws

/-- Decoding the word of the command gives the command. -/
def RoundTrip.Statement (i : Instr) : Prop := i.wellFormed = true → decode (encode i) = .instr i

/-- The round trip of a command, from the row of the opcode map that its word selects. -/
theorem roundTrip_of_row {i : Instr} {op : BitVec 6} (r : OpRow) (h : opOf (encode i) = op)
    (h1 : opRows.find? (fun r => r.op == op) = some r) (h2 : encode i &&& r.mask = encN op) (h3 : r.pat = encN op)
    (h4 : r.build (encode i) = i) : RoundTrip.Statement i := by
  subst h
  intro hw
  have h := decode_of_row h1 (h2.trans h3.symm) (by rw [h4]; exact hw)
  rwa [h4] at h

theorem RoundTrip.nop : RoundTrip.Statement .nop :=
  roundTrip_of_row ⟨0x00#6, 0x00000000#32, 0xFFFFFFFF#32, fun _ => .nop⟩
    (opOf_encN _) rfl (encN_mask _) rfl (rfl)

theorem RoundTrip.unpack (rw : BitVec 2) (sgn : Bit) (width : BitVec 6) (off : BitVec 6) :
    RoundTrip.Statement (.unpack rw sgn width off) :=
  roundTrip_of_row ⟨0x01#6, 0x04000000#32, 0xFCFF40C0#32, fun c => .unpack (rwOf c) (sgnOf c) (widthOf c) (offOf c)⟩
    (opOf_encF ..) rfl (encF_mask ..) rfl
    (by simp only [encode, rwOf_encF, sgnOf_encF, widthOf_encF, offOf_encF])

theorem RoundTrip.pack (rw : BitVec 2) (sgn : Bit) (width : BitVec 6) (off : BitVec 6) :
    RoundTrip.Statement (.pack rw sgn width off) :=
  roundTrip_of_row ⟨0x02#6, 0x08000000#32, 0xFCFF40C0#32, fun c => .pack (rwOf c) (sgnOf c) (widthOf c) (offOf c)⟩
    (opOf_encF ..) rfl (encF_mask ..) rfl
    (by simp only [encode, rwOf_encF, sgnOf_encF, widthOf_encF, offOf_encF])

theorem RoundTrip.rmap (addr : RegAddr) (idx : BitVec 4) : RoundTrip.Statement (.rmap addr idx) :=
  roundTrip_of_row ⟨0x03#6, 0x0C000000#32, 0xFF00FFF0#32, fun c => .rmap (addrOf c) (idxOf c)⟩
    (opOf_encA ..) rfl (encA_mask ..) rfl (congrArg₂ Instr.rmap (addrOf_encA ..) (idxOf_encA ..))

theorem RoundTrip.unpackr (addr : RegAddr) (idx : BitVec 4) : RoundTrip.Statement (.unpackr addr idx) :=
  roundTrip_of_row ⟨0x04#6, 0x10000000#32, 0xFF00FFF0#32, fun c => .unpackr (addrOf c) (idxOf c)⟩
    (opOf_encA ..) rfl (encA_mask ..) rfl (congrArg₂ Instr.unpackr (addrOf_encA ..) (idxOf_encA ..))

theorem RoundTrip.packr (addr : RegAddr) (idx : BitVec 4) : RoundTrip.Statement (.packr addr idx) :=
  roundTrip_of_row ⟨0x05#6, 0x14000000#32, 0xFF00FFF0#32, fun c => .packr (addrOf c) (idxOf c)⟩
    (opOf_encA ..) rfl (encA_mask ..) rfl (congrArg₂ Instr.packr (addrOf_encA ..) (idxOf_encA ..))

theorem RoundTrip.enccfg : RoundTrip.Statement .enccfg :=
  roundTrip_of_row ⟨0x08#6, 0x20000000#32, 0xFFFFFFFF#32, fun _ => .enccfg⟩
    (opOf_encN _) rfl (encN_mask _) rfl (rfl)

theorem RoundTrip.encadc : RoundTrip.Statement .encadc :=
  roundTrip_of_row ⟨0x09#6, 0x24000000#32, 0xFFFFFFFF#32, fun _ => .encadc⟩
    (opOf_encN _) rfl (encN_mask _) rfl (rfl)

theorem RoundTrip.deccfg : RoundTrip.Statement .deccfg :=
  roundTrip_of_row ⟨0x0A#6, 0x28000000#32, 0xFFFFFFFF#32, fun _ => .deccfg⟩
    (opOf_encN _) rfl (encN_mask _) rfl (rfl)

theorem RoundTrip.decadc : RoundTrip.Statement .decadc :=
  roundTrip_of_row ⟨0x0B#6, 0x2C000000#32, 0xFFFFFFFF#32, fun _ => .decadc⟩
    (opOf_encN _) rfl (encN_mask _) rfl (rfl)

theorem RoundTrip.muxsel (m : BitVec 4) : RoundTrip.Statement (.muxsel m) :=
  roundTrip_of_row ⟨0x0C#6, 0x30000000#32, 0xFFFFFFF0#32, fun c => .muxsel (immOf 4 c)⟩
    (opOf_encI4 ..) rfl (encI4_mask ..) rfl (congrArg Instr.muxsel (immOf_encI4 ..))

theorem RoundTrip.ctsel (c : BitVec 3) : RoundTrip.Statement (.ctsel c) :=
  roundTrip_of_row ⟨0x0D#6, 0x34000000#32, 0xFFFFFFF8#32, fun c => .ctsel (immOf 3 c)⟩
    (opOf_encI3 ..) rfl (encI3_mask ..) rfl (congrArg Instr.ctsel (immOf_encI3 ..))

theorem RoundTrip.avgsel (a : BitVec 3) : RoundTrip.Statement (.avgsel a) :=
  roundTrip_of_row ⟨0x0E#6, 0x38000000#32, 0xFFFFFFF8#32, fun c => .avgsel (immOf 3 c)⟩
    (opOf_encI3 ..) rfl (encI3_mask ..) rfl (congrArg Instr.avgsel (immOf_encI3 ..))

theorem RoundTrip.rngsel (r : Bit) : RoundTrip.Statement (.rngsel r) :=
  roundTrip_of_row ⟨0x0F#6, 0x3C000000#32, 0xFFFFFFFE#32, fun c => .rngsel (immOf 1 c)⟩
    (opOf_encI1 ..) rfl (encI1_mask ..) rfl (congrArg Instr.rngsel (immOf_encI1 ..))

theorem RoundTrip.setcal : RoundTrip.Statement .setcal :=
  roundTrip_of_row ⟨0x10#6, 0x40000000#32, 0xFFFFFFFF#32, fun _ => .setcal⟩
    (opOf_encN _) rfl (encN_mask _) rfl (rfl)

theorem RoundTrip.clrcal : RoundTrip.Statement .clrcal :=
  roundTrip_of_row ⟨0x11#6, 0x44000000#32, 0xFFFFFFFF#32, fun _ => .clrcal⟩
    (opOf_encN _) rfl (encN_mask _) rfl (rfl)

theorem RoundTrip.setctl (b : Bit) : RoundTrip.Statement (.setctl b) :=
  roundTrip_of_row ⟨0x12#6, 0x48000000#32, 0xFFFFFFFE#32, fun c => .setctl (immOf 1 c)⟩
    (opOf_encI1 ..) rfl (encI1_mask ..) rfl (congrArg Instr.setctl (immOf_encI1 ..))

theorem RoundTrip.enccal : RoundTrip.Statement .enccal :=
  roundTrip_of_row ⟨0x13#6, 0x4C000000#32, 0xFFFFFFFF#32, fun _ => .enccal⟩
    (opOf_encN _) rfl (encN_mask _) rfl (rfl)

theorem RoundTrip.enctco : RoundTrip.Statement .enctco :=
  roundTrip_of_row ⟨0x14#6, 0x50000000#32, 0xFFFFFFFF#32, fun _ => .enctco⟩
    (opOf_encN _) rfl (encN_mask _) rfl (rfl)

theorem RoundTrip.rdctx (sel : BitVec 3) : RoundTrip.Statement (.rdctx sel) :=
  roundTrip_of_row ⟨0x15#6, 0x54000000#32, 0xFFFFFFF8#32, fun c => .rdctx (immOf 3 c)⟩
    (opOf_encI3 ..) rfl (encI3_mask ..) rfl (congrArg Instr.rdctx (immOf_encI3 ..))

theorem RoundTrip.decvsh (r : Bit) : RoundTrip.Statement (.decvsh r) :=
  roundTrip_of_row ⟨0x18#6, 0x60000000#32, 0xFFFFFFFE#32, fun c => .decvsh (immOf 1 c)⟩
    (opOf_encI1 ..) rfl (encI1_mask ..) rfl (congrArg Instr.decvsh (immOf_encI1 ..))

theorem RoundTrip.decvbus : RoundTrip.Statement .decvbus :=
  roundTrip_of_row ⟨0x19#6, 0x64000000#32, 0xFFFFFFFF#32, fun _ => .decvbus⟩
    (opOf_encN _) rfl (encN_mask _) rfl (rfl)

theorem RoundTrip.dectemp : RoundTrip.Statement .dectemp :=
  roundTrip_of_row ⟨0x1A#6, 0x68000000#32, 0xFFFFFFFF#32, fun _ => .dectemp⟩
    (opOf_encN _) rfl (encN_mask _) rfl (rfl)

theorem RoundTrip.deccur : RoundTrip.Statement .deccur :=
  roundTrip_of_row ⟨0x1B#6, 0x6C000000#32, 0xFFFFFFFF#32, fun _ => .deccur⟩
    (opOf_encN _) rfl (encN_mask _) rfl (rfl)

theorem RoundTrip.decpwr : RoundTrip.Statement .decpwr :=
  roundTrip_of_row ⟨0x1C#6, 0x70000000#32, 0xFFFFFFFF#32, fun _ => .decpwr⟩
    (opOf_encN _) rfl (encN_mask _) rfl (rfl)

theorem RoundTrip.deceng : RoundTrip.Statement .deceng :=
  roundTrip_of_row ⟨0x1D#6, 0x74000000#32, 0xFFFFFFFF#32, fun _ => .deceng⟩
    (opOf_encN _) rfl (encN_mask _) rfl (rfl)

theorem RoundTrip.decchg : RoundTrip.Statement .decchg :=
  roundTrip_of_row ⟨0x1E#6, 0x78000000#32, 0xFFFFFFFF#32, fun _ => .decchg⟩
    (opOf_encN _) rfl (encN_mask _) rfl (rfl)

theorem RoundTrip.decflg : RoundTrip.Statement .decflg :=
  roundTrip_of_row ⟨0x20#6, 0x80000000#32, 0xFFFFFFFF#32, fun _ => .decflg⟩
    (opOf_encN _) rfl (encN_mask _) rfl (rfl)

theorem RoundTrip.encalrt (b : BitVec 4) : RoundTrip.Statement (.encalrt b) :=
  roundTrip_of_row ⟨0x21#6, 0x84000000#32, 0xFFFFFFF0#32, fun c => .encalrt (immOf 4 c)⟩
    (opOf_encI4 ..) rfl (encI4_mask ..) rfl (congrArg Instr.encalrt (immOf_encI4 ..))

theorem RoundTrip.maskalrt : RoundTrip.Statement .maskalrt :=
  roundTrip_of_row ⟨0x22#6, 0x88000000#32, 0xFFFFFFFF#32, fun _ => .maskalrt⟩
    (opOf_encN _) rfl (encN_mask _) rfl (rfl)

theorem RoundTrip.encthr (addr : RegAddr) : RoundTrip.Statement (.encthr addr) :=
  roundTrip_of_row ⟨0x23#6, 0x8C000000#32, 0xFF00FFFF#32, fun c => .encthr (addrOf c)⟩
    (opOf_encA ..) rfl (encA_zero_mask ..) rfl (congrArg Instr.encthr (addrOf_encA ..))

theorem RoundTrip.decthr (addr : RegAddr) : RoundTrip.Statement (.decthr addr) :=
  roundTrip_of_row ⟨0x24#6, 0x90000000#32, 0xFF00FFFF#32, fun c => .decthr (addrOf c)⟩
    (opOf_encA ..) rfl (encA_zero_mask ..) rfl (congrArg Instr.decthr (addrOf_encA ..))

end Sys2Proof.Laws
end

