-- ==== Sys2Proof/Tests/Slice0.lean ====
section
/-! SUPPORT. Tests with expected results from the spec's own vectors (95_test_vectors.md: T, V and P numbers), and one
witness for each statement that has hypotheses (`test_witness_…`). -/

open Sys2Proof Sys2Proof.Machine

namespace Sys2Proof.Tests

/-! ### Well-formedness and decoding -/

/-- 30_encoding.md R98, V84: the ill-formed terms are refused, the last selector is not. -/
theorem test_wellFormed_smoke : Instr.wellFormed (.rdctx 5#3) = false ∧ Instr.wellFormed (.rdctx 6#3) = false ∧
    Instr.wellFormed (.rdctx 7#3) = false ∧ Instr.wellFormed (.rdctx 4#3) = true := by decide

/-- Words of V1, V2, V15, T9, T2, T4. -/
theorem test_decode_family0 :
    decode 0x00000000#32 = .instr .nop ∧ decode 0x05009404#32 = .instr (.unpack 1#2 1#1 20#6 4#6) ∧
    decode 0x0800040C#32 = .instr (.pack 0#2 0#1 4#6 12#6) ∧ decode 0x0C010000#32 = .instr (.rmap 0x01#8 0#4) ∧
    decode 0x100A0000#32 = .instr (.unpackr 0x0A#8 0#4) ∧ decode 0x14000004#32 = .instr (.packr 0x00#8 4#4) := by
  decide

/-- Words of V50, V55, V59, V62, V66, V69, V70, V71. -/
theorem test_decode_family1 :
    decode 0x20000000#32 = .instr .enccfg ∧ decode 0x24000000#32 = .instr .encadc ∧
    decode 0x28000000#32 = .instr .deccfg ∧ decode 0x2C000000#32 = .instr .decadc ∧
    decode 0x3000000B#32 = .instr (.muxsel 0xB#4) ∧ decode 0x34000007#32 = .instr (.ctsel 7#3) ∧
    decode 0x38000007#32 = .instr (.avgsel 7#3) ∧ decode 0x3C000001#32 = .instr (.rngsel 1#1) := by decide

/-- Words of V80 to V91. -/
theorem test_decode_family2 :
    decode 0x40000000#32 = .instr .setcal ∧ decode 0x44000000#32 = .instr .clrcal ∧
    decode 0x48000001#32 = .instr (.setctl 1#1) ∧ decode 0x4C000000#32 = .instr .enccal ∧
    decode 0x50000000#32 = .instr .enctco ∧ decode 0x54000003#32 = .instr (.rdctx 3#3) := by decide

/-- Words of V101 to V129. -/
theorem test_decode_family3 :
    decode 0x60000001#32 = .instr (.decvsh 1#1) ∧ decode 0x64000000#32 = .instr .decvbus ∧
    decode 0x68000000#32 = .instr .dectemp ∧ decode 0x6C000000#32 = .instr .deccur ∧
    decode 0x70000000#32 = .instr .decpwr ∧ decode 0x74000000#32 = .instr .deceng ∧
    decode 0x78000000#32 = .instr .decchg := by decide

/-- Words of V140 to V161. -/
theorem test_decode_family4 :
    decode 0x80000000#32 = .instr .decflg ∧ decode 0x8400000A#32 = .instr (.encalrt 0xA#4) ∧
    decode 0x88000000#32 = .instr .maskalrt ∧ decode 0x8C0C0000#32 = .instr (.encthr 0x0C#8) ∧
    decode 0x90110000#32 = .instr (.decthr 0x11#8) := by decide

/-- V68, V72, V84, V149, V163, V170 to V179. -/
theorem test_decode_illegal :
    decode 0x30000010#32 = .illegal .mustBeZero 0x0C#6 ∧ decode 0x3C000002#32 = .illegal .mustBeZero 0x0F#6 ∧
    decode 0x54000005#32 = .illegal .badSelector 0x15#6 ∧ decode 0x8C0C0001#32 = .illegal .mustBeZero 0x23#6 ∧
    decode 0xFFFFFFFF#32 = .illegal .reservedOp 0x3F#6 ∧ decode 0x18000000#32 = .illegal .reservedOp 0x06#6 ∧
    decode 0x00000001#32 = .illegal .mustBeZero 0x00#6 ∧ decode 0x04004404#32 = .illegal .mustBeZero 0x01#6 ∧
    decode 0x04010404#32 = .illegal .mustBeZero 0x01#6 ∧ decode 0x11040000#32 = .illegal .mustBeZero 0x04#6 ∧
    decode 0x10040010#32 = .illegal .mustBeZero 0x04#6 ∧ decode 0xA0000000#32 = .illegal .reservedOp 0x28#6 := by
  decide

/-- The two entry points of the host, on the word of V66. -/
theorem test_table_word : decodeTableWord 32 0x3000000B = some (.muxsel 0xB#4) ∧
    step (State.reset.withFetchWord 32 0x3000000B) =
      exec (.muxsel 0xB#4) (State.reset.withFetchWord 32 0x3000000B) := ⟨by decide, rfl⟩

/-! ### One step of each instruction -/

/-- The block just reset, with these ports driven. -/
def onReset (p : Inputs) : State := State.reset.present p

/-- The context of V110 to V132 with `ki.*` of V85, and these ports driven. -/
def onCal (p : Inputs) : State :=
  { State.reset with calValid := 1#1, shuntCal := some 4096#15, tempco := some 0x3FFF#14,
                     curLsb := some 1250000#32, pwrLsb := some 4000000#32, inp := p }

/-- The block with `ctl.strict` 0, and these ports driven. -/
def onLenient (p : Inputs) : State := { State.reset with strict := 0#1, inp := p }

/-- The outputs of one step. -/
def outOf (s : State) : Option Outputs :=
  match step s with
  | .next t => some t.out
  | .fault _ | .refused _ => none

/-- The context registers after one step. -/
def contextOf (s : State) : Option Context :=
  match step s with
  | .next t => some t.context
  | .fault _ | .refused _ => none

/-- A value on `vo` and no fault. -/
def valueOut (v : Int) : Option Outputs := some { vo := some (BitVec.ofInt 80 v), flt := some 0#4 }

/-- A word on `wo` and no fault. -/
def wordOut (w : RegWord) : Option Outputs := some { wo := some w, flt := some 0#4 }

/-- A fault. -/
def faultOut (c : BitVec 4) (info : BitVec 8) : Option Outputs := some { flt := some c, finfo := some info }

/-- V1, with a failed read on the ports (R120). -/
theorem test_nop : outOf (onReset { cmd := 0x00000000#32, xerr := 1#1 }) = some { flt := some 0#4 } := by decide

/-- V3, V4, V5. -/
theorem test_unpack_value : outOf (onReset { cmd := 0x05009404#32, wi := 0xFFFFFFFFFF#40 }) = valueOut (-1) ∧
    outOf (onReset { cmd := 0x05001404#32, wi := 0xFFFFF0#40 }) = valueOut 1048575 ∧
    outOf (onReset { cmd := 0x0400810F#32, wi := 0x8000#40 }) = valueOut (-1) := by decide

/-- V9, V10, V11, V12, V14. -/
theorem test_unpack_fault : outOf (onReset { cmd := 0x0400040D#32, xerr := 1#1, xinfo := 0x5A#8 }) = faultOut 5#4 0#8 ∧
    outOf (onReset { cmd := 0x07000400#32 }) = faultOut 5#4 0#8 ∧
    outOf (onReset { cmd := 0x04000000#32 }) = faultOut 5#4 0#8 ∧
    outOf (onReset { cmd := 0x06002900#32 }) = faultOut 5#4 0#8 := by decide

/-- V18, V20, V26. -/
theorem test_pack_word :
    outOf (onLenient { cmd := 0x0800040C#32, wi := 0xABCD#40, vi := BitVec.ofInt 80 (-3) }) = wordOut 0xDBCD#40 ∧
    outOf (onReset { cmd := 0x09009404#32, wi := 0x00000F#40, vi := BitVec.ofInt 80 (-524288) }) = wordOut 0x80000F#40 ∧
    outOf (onReset { cmd := 0x0800040C#32, wi := 0xFFFFFFABCD#40, vi := 15#80 }) = wordOut 0xFBCD#40 := by decide

/-- V17, V21, V27. -/
theorem test_pack_fault :
    outOf (onReset { cmd := 0x0800040C#32, wi := 0xABCD#40, vi := BitVec.ofInt 80 (-3) }) = faultOut 1#4 4#8 ∧
    outOf (onReset { cmd := 0x09009404#32, vi := 524288#80 }) = faultOut 1#4 20#8 ∧
    outOf (onReset { cmd := 0x0800040C#32, vi := 99#80, xerr := 1#1, xinfo := 1#8 }) = faultOut 2#4 1#8 := by decide

/-- V28, V31. -/
theorem test_rmap_hit :
    outOf (onReset { cmd := 0x0C0B000E#32 }) = some
      { dout := { valid := some 1#1, rw := some 0#2, nfields := some 15#4, off := some 0#6, width := some 1#6,
                  sgn := some 0#1 },
        flt := some 0#4 } ∧
    outOf (onReset { cmd := 0x0C090000#32 }) = some
      { dout := { valid := some 1#1, rw := some 2#2, nfields := some 1#4, off := some 0#6, width := some 40#6,
                  sgn := some 0#1 },
        flt := some 0#4 } := by decide

/-- V29, V30. -/
theorem test_rmap_miss :
    outOf (onReset { cmd := 0x0C0B000F#32 }) = some
      { dout := { valid := some 0#1, rw := some 0#2, nfields := some 15#4 }, flt := some 0#4 } ∧
    outOf (onReset { cmd := 0x0C120000#32 }) = some { dout := { valid := some 0#1 }, flt := some 0#4 } := by decide

/-- T2, V33, V36, V180. -/
theorem test_unpackr : outOf (onReset { cmd := 0x100A0000#32, wi := 0x8000000000#40 }) = valueOut (-549755813888) ∧
    outOf (onReset { cmd := 0x10000002#32, wi := 0x3FC0#40 }) = valueOut 255 ∧
    outOf (onReset { cmd := 0x10010005#32 }) = faultOut 6#4 0x01#8 ∧
    outOf (onReset { cmd := 0x10120000#32, xerr := 1#1 }) = faultOut 6#4 0x12#8 := by decide

/-- V39, V40, V41, V42. -/
theorem test_packr : outOf (onReset { cmd := 0x14010004#32, wi := 0xFB68#40, vi := 7#80 }) = wordOut 0xFB6F#40 ∧
    outOf (onReset { cmd := 0x14010004#32, wi := 0xFB68#40, vi := 8#80 }) = faultOut 1#4 3#8 ∧
    outOf (onReset { cmd := 0x14020000#32, wi := 0x8000#40, vi := 4096#80 }) = wordOut 0x9000#40 ∧
    outOf (onReset { cmd := 0x14FF0000#32 }) = faultOut 6#4 0xFF#8 := by decide

/-- V53, V54. -/
theorem test_enccfg :
    outOf (onReset { cmd := 0x20000000#32, ci := { rstacc := 1#1, convdly := 0x55#8, tempcomp := 1#1 } }) =
      wordOut 0x5560#40 ∧
    outOf (onReset { cmd := 0x20000000#32, ci := { rst := 1#1, rstacc := 1#1, convdly := 255#8, tempcomp := 1#1,
                                                   adcrange := 1#1 } }) = wordOut 0xFFF0#40 := by decide

/-- V55, V58. -/
theorem test_encadc :
    outOf (onReset { cmd := 0x24000000#32, ci := { mode := 15#4, vbusct := 5#3, vshct := 5#3, vtct := 5#3 } }) =
      wordOut 0xFB68#40 ∧
    outOf (onReset { cmd := 0x24000000#32, ci := { mode := 11#4, vbusct := 4#3, vshct := 4#3, avg := 2#3 } }) =
      wordOut 0xB902#40 := by decide

/-- V60, V61. -/
theorem test_deccfg :
    outOf (onReset { cmd := 0x28000000#32, wi := 0x4A2F#40 }) = some
      { co := { rst := some 0#1, rstacc := some 0#1, convdly := some 40#8, tempcomp := some 1#1, adcrange := some 0#1 },
        flt := some 0#4 } ∧
    outOf (onReset { cmd := 0x28000000#32, xerr := 1#1, xinfo := 7#8 }) = faultOut 2#4 7#8 := by decide

/-- V62. -/
theorem test_decadc : outOf (onReset { cmd := 0x2C000000#32, wi := 0xABCD#40 }) = some
    { co := { mode := some 10#4, vbusct := some 5#3, vshct := some 7#3, vtct := some 1#3, avg := some 5#3 },
      flt := some 0#4 } := by decide

/-- V65, V66. -/
theorem test_muxsel :
    outOf (onReset { cmd := 0x30000008#32 }) = some
      { mo := { cont := some 1#1, temp := some 0#1, shunt := some 0#1, bus := some 0#1, shutdown := some 1#1 },
        flt := some 0#4 } ∧
    outOf (onReset { cmd := 0x3000000B#32 }) = some
      { mo := { cont := some 1#1, temp := some 0#1, shunt := some 1#1, bus := some 1#1, shutdown := some 0#1 },
        flt := some 0#4 } := by decide

/-- V69, V70, V71 and the examples of R149. -/
theorem test_selectors : outOf (onReset { cmd := 0x34000005#32 }) = valueOut 1052 ∧
    outOf (onReset { cmd := 0x34000007#32 }) = valueOut 4120 ∧ outOf (onReset { cmd := 0x38000000#32 }) = valueOut 1 ∧
    outOf (onReset { cmd := 0x38000007#32 }) = valueOut 1024 ∧ outOf (onReset { cmd := 0x3C000000#32 }) = valueOut 40 ∧
    outOf (onReset { cmd := 0x3C000001#32 }) = valueOut 10 := by decide

/-- V85. -/
theorem test_setcal :
    contextOf (onReset { cmd := 0x40000000#32, xerr := 1#1,
                         ki := { shuntCal := 4096#15, tempco := 0x3FFF#14, curLsb := 1250000#32,
                                 pwrLsb := 4000000#32 } }) =
      some ⟨1#1, 1#1, some 4096#15, some 0x3FFF#14, some 1250000#32, some 4000000#32⟩ := by decide

/-- V91. -/
theorem test_clrcal : contextOf (onCal { cmd := 0x44000000#32 }) = some ⟨1#1, 0#1, none, none, none, none⟩ := by decide

/-- V90. -/
theorem test_setctl : contextOf (onCal { cmd := 0x48000000#32 }) =
    some ⟨0#1, 1#1, some 4096#15, some 0x3FFF#14, some 1250000#32, some 4000000#32⟩ := by decide

/-- V82, V88. -/
theorem test_enccal : outOf (onReset { cmd := 0x4C000000#32 }) = faultOut 3#4 0#8 ∧
    outOf (onCal { cmd := 0x4C000000#32 }) = wordOut 0x1000#40 := by decide

/-- V83, V89. -/
theorem test_enctco : outOf (onReset { cmd := 0x50000000#32 }) = faultOut 3#4 0#8 ∧
    outOf (onCal { cmd := 0x50000000#32 }) = wordOut 0x3FFF#40 := by decide

/-- V80, V81, V84. -/
theorem test_rdctx_reset : outOf (onReset { cmd := 0x54000004#32 }) = valueOut 2 ∧
    outOf (onReset { cmd := 0x54000000#32 }) = faultOut 3#4 0#8 ∧
    outOf (onReset { cmd := 0x54000005#32 }) = faultOut 4#4 0x15#8 := by decide

/-- V86, V87. -/
theorem test_rdctx_cal : outOf (onCal { cmd := 0x54000004#32 }) = valueOut 3 ∧
    outOf (onCal { cmd := 0x54000000#32 }) = valueOut 4096 ∧ outOf (onCal { cmd := 0x54000001#32 }) = valueOut 16383 ∧
    outOf (onCal { cmd := 0x54000002#32 }) = valueOut 1250000 ∧
    outOf (onCal { cmd := 0x54000003#32 }) = valueOut 4000000 := by decide

/-- V104, V105, V108, V134. -/
theorem test_decvsh : outOf (onReset { cmd := 0x60000000#32, wi := 0x800000#40 }) = valueOut (-20971520) ∧
    outOf (onReset { cmd := 0x60000001#32, wi := 0x800000#40 }) = valueOut (-5242880) ∧
    outOf (onReset { cmd := 0x60000000#32, wi := 0x00001F#40 }) = valueOut 40 ∧
    outOf (onReset { cmd := 0x60000000#32, xerr := 1#1, xinfo := 9#8 }) = faultOut 2#4 9#8 := by decide

/-- V111, V113. -/
theorem test_decvbus : outOf (onReset { cmd := 0x64000000#32, wi := 0x0F0000#40 }) = valueOut 1536000 ∧
    outOf (onReset { cmd := 0x64000000#32, wi := 0x80000F#40 }) = valueOut 13107200 := by decide

/-- V114, V116. -/
theorem test_dectemp : outOf (onReset { cmd := 0x68000000#32, wi := 0x0C80#40 }) = valueOut 80000 ∧
    outOf (onReset { cmd := 0x68000000#32, wi := 0x8000#40 }) = valueOut (-819200) := by decide

/-- V120, V133. -/
theorem test_deccur : outOf (onCal { cmd := 0x6C000000#32, wi := 0xF33330#40 }) = valueOut (-65536250000) ∧
    outOf (onReset { cmd := 0x6C000000#32, xerr := 1#1, xinfo := 3#8 }) = faultOut 2#4 3#8 := by decide

/-- V125, T12. -/
theorem test_decpwr : outOf (onCal { cmd := 0x70000000#32, wi := 0xFFFFFF#40 }) = valueOut 67108860000000 ∧
    outOf (onReset { cmd := 0x70000000#32 }) = faultOut 3#4 0#8 := by decide

/-- V128, T7. -/
theorem test_deceng :
    outOf (onCal { cmd := 0x74000000#32, wi := 0xFFFFFFFFFF#40 }) = valueOut 70368744177600000000 ∧
    outOf (onCal { cmd := 0x74000000#32 }) = valueOut 0 := by decide

/-- V130, V131. -/
theorem test_decchg : outOf (onCal { cmd := 0x78000000#32, wi := 0xFFFFFFFFF0#40 }) = valueOut (-20000000) ∧
    outOf (onCal { cmd := 0x78000000#32, wi := 0x8000000000#40 }) = valueOut (-687194767360000000) := by decide

/-- V144, V141. -/
theorem test_decflg :
    (outOf (onReset { cmd := 0x80000000#32, wi := 0x8AD4#40 })).map Outputs.fo = some
      { alertLatch := some 1#1, convReadyOnAlert := some 0#1, assertOnAverage := some 0#1, alertPolarity := some 0#1,
        energyOverflow := some 1#1, chargeOverflow := some 0#1, mathOverflow := some 1#1, tempOverLimit := some 1#1,
        shuntOverLimit := some 1#1, shuntUnderLimit := some 0#1, busOverLimit := some 1#1, busUnderLimit := some 0#1,
        powerOverLimit := some 1#1, conversionComplete := some 0#1, checksumError := some 0#1 } ∧
    outOf (onReset { cmd := 0x80000000#32, wi := 0x0100#40 }) = outOf (onReset { cmd := 0x80000000#32 }) := by decide

/-- V147, V149. -/
theorem test_encalrt : outOf (onReset { cmd := 0x84000005#32 }) = wordOut 0x5000#40 ∧
    outOf (onReset { cmd := 0x84000010#32 }) = faultOut 4#4 0x21#8 := by decide

/-- V150, V151. -/
theorem test_maskalrt : outOf (onReset { cmd := 0x88000000#32, wi := 0x8AD4#40 }) = wordOut 0x8000#40 ∧
    outOf (onReset { cmd := 0x88000000#32, wi := 0x0FFF#40 }) = wordOut 0#40 := by decide

/-- V153, V154, V155, V159. -/
theorem test_encthr : outOf (onReset { cmd := 0x8C110000#32, vi := 65535#80 }) = wordOut 0xFFFF#40 ∧
    outOf (onReset { cmd := 0x8C0D0000#32, vi := 65536#80 }) = faultOut 1#4 16#8 ∧
    outOf (onLenient { cmd := 0x8C0D0000#32, vi := 65536#80 }) = wordOut 0#40 ∧
    outOf (onReset { cmd := 0x8C0B0000#32 }) = faultOut 6#4 0x0B#8 := by decide

/-- V161, V162. -/
theorem test_decthr : outOf (onReset { cmd := 0x900C0000#32, wi := 0xFF8000#40 }) = valueOut 32768 ∧
    outOf (onReset { cmd := 0x90000000#32, xerr := 1#1 }) = faultOut 6#4 0#8 := by decide

/-- V183. -/
theorem test_reset_step : outOf (onCal { cmd := 0x4C000000#32, rst := 1#1 }) = some {} ∧
    contextOf (onCal { cmd := 0x4C000000#32, rst := 1#1 }) = some State.reset.context := by decide

/-- 20_memory.md R64, the examples of the rule: `0x12 0x34 0x56` and `0xFB68`. -/
theorem test_byte_order : wordOfBytes [0x12#8, 0x34#8, 0x56#8] = 0x123456#40 ∧
    bytesOfWord 0xFB68#40 2 = [0xFB#8, 0x68#8] := by decide

/-- P1 step 4: the bytes a write lists, in canonical form. -/
theorem test_bus_write : busWrite 0x01#8 2 0xB902#40 false State.reset =
    .next (State.reset.setDev [(8, 0xB9#8), (9, 0x02#8)]) ∧ Memory.wf [(8, 0xB9#8), (9, 0x02#8)] = true := ⟨rfl, by decide⟩

/-- 20_memory.md R77, row 0x0B: of the word `0x9AD4` of P5 step 3 only bits 15:12 are held; 93 U3: of `0x9000` in
`shunt_calibration`, bit 15 is reserved. -/
theorem test_bus_held :
    busWrite 0x0B#8 2 0x9AD4#40 false State.reset = .next (State.reset.setDev [(88, 0x90#8), (89, 0x00#8)]) ∧
    busWrite 0x02#8 2 0x9000#40 false State.reset = .next (State.reset.setDev [(16, 0x10#8), (17, 0x00#8)]) := ⟨rfl, rfl⟩

/-! ### Witnesses: a state and operands that meet the hypotheses of each statement, clause by clause -/

/-- DecodeReadsBackEveryCommand, at the largest selector. -/
theorem test_witness_decode : Instr.wellFormed (.rdctx 4#3) = true ∧ Instr.wellFormed (.unpack 3#2 1#1 63#6 63#6) = true := by
  decide

/-- AcceptedWordIsItsCommandsWord. -/
theorem test_witness_accepted : decode 0x0700BF3F#32 = .instr (.unpack 3#2 1#1 63#6 63#6) := by decide

/-- ReservedOpcodesSelectNoCommand, second clause, at its boundary values. -/
theorem test_witness_reserved : (onReset { cmd := 0x94000000#32 }).inp.rst = 0#1 ∧
    0x25 ≤ (onReset { cmd := 0x94000000#32 }).inp.cmd.toNat / 2 ^ 26 ∧
    (onReset { cmd := 0x7C000000#32 }).inp.cmd.toNat / 2 ^ 26 ∈ [0x06, 0x07, 0x16, 0x17, 0x1F] ∧
    decode 0x94000000#32 = .illegal .reservedOp 0x25#6 := by decide

/-- NonCommandWordRaisesIllegalCommand: the all-ones word is no command's word. -/
theorem test_witness_nonCommand : (onReset { cmd := 0xFFFFFFFF#32 }).inp.rst = 0#1 ∧
    ∀ i : Instr, i.wellFormed = true → encode i ≠ (onReset { cmd := 0xFFFFFFFF#32 }).inp.cmd := by
  refine ⟨rfl, fun i _ h => ?_⟩
  have h30 : (encode i).getLsbD 30 = true := by rw [h]; rfl
  have h31 : (encode i).getLsbD 31 = true := by rw [h]; rfl
  cases i <;> simp [encode, encN, encF, encA, encI] at h30 h31

/-- StepRunsTheCommandOnCmd; the second clause of ResetStepRestoresTheContext. -/
theorem test_witness_step : (onReset { cmd := 0x30000008#32 }).inp.rst = 0#1 ∧
    decode (onReset { cmd := 0x30000008#32 }).inp.cmd = .instr (.muxsel 8#4) := by decide

/-- ResetStepRestoresTheContext: a reset step from a state with a context. -/
theorem test_witness_reset : (onCal { rst := 1#1 }).inp.rst = 1#1 ∧ (onCal { rst := 1#1 }).calValid = 1#1 := by decide

/-- StepKeepsTheInvariant: a state with a context, a listed register and a fault on its outputs. -/
theorem test_witness_inv :
    State.Inv { onCal { cmd := 0x40000000#32 } with
      out := { flt := some 6#4, finfo := some 0x12#8 }, dev := [(8, 0xB9#8), (9, 0x02#8)] } ∧
    ∃ t, step { onCal { cmd := 0x40000000#32 } with
      out := { flt := some 6#4, finfo := some 0x12#8 }, dev := [(8, 0xB9#8), (9, 0x02#8)] } = .next t :=
  ⟨⟨by decide, .inr (.inr ⟨.badAddress 0x12#8, rfl⟩), by decide⟩, _, rfl⟩

/-- RunKeepsTheInvariant: P1 steps 3 to 6, a failed write, a failed read and a reset step. -/
theorem test_witness_run : State.reset.Inv ∧ ∃ e outs,
    run [.issue { cmd := 0x24000000#32, ci := { mode := 0xB#4, vbusct := 4#3, vshct := 4#3, avg := 2#3 } },
         .writeOut 0x01#8 2 false, .read 0x01#8 2 none, .issueHeld { cmd := 0x2C000000#32 },
         .write 0x0C#8 2 0x7FFF#40 true, .read 0x0A#8 5 (some 7#8), .issue { rst := 1#1 }] State.reset =
      .next (e, outs) ∧ e.dev = [(8, 0xB9#8), (9, 0x02#8)] :=
  ⟨⟨by decide, .inl rfl, by decide⟩, _, _, rfl, rfl⟩

/-- CommandsTouchNothingElse: a command that neither loads nor drops the context, in a state with one. -/
theorem test_witness_touch : ∃ t, exec .deccur (onCal { wi := 0x10#40 }) = .next t ∧ Instr.deccur ≠ .setcal ∧
    Instr.deccur ≠ .clrcal ∧ ∀ b, Instr.deccur ≠ .setctl b :=
  ⟨_, rfl, by decide, by decide, by intro b; simp⟩

/-- FaultHasNoOtherEffect. -/
theorem test_witness_fault : ∃ t, step (onReset { cmd := 0x6C000000#32 }) = .next t ∧ t.out.flt = some 3#4 ∧
    (3#4 : BitVec 4) ≠ 0#4 := ⟨_, rfl, rfl, by decide⟩

/-- FaultCodesAndInformation: both ends of the width's range. -/
theorem test_witness_faultCodes : (1 ≤ 1 ∧ 1 ≤ 40) ∧ (1 ≤ 40 ∧ 40 ≤ 40) := by decide

/-- FirstFaultWinsElseTheCommandCompletes: a rejected word, and each fault of the order where a later one would
apply too (`DECTHR` and `PACK` with both causes, `DECCUR` with two), and a completion. -/
theorem test_witness_firstFault :
    decode (onReset { cmd := 0x64000001#32, xerr := 1#1 }).inp.cmd = .illegal .mustBeZero 0x19#6 ∧
    Instr.wellFormed (.decthr 0x12#8) = true ∧ (onReset { xerr := 1#1 }).calCoherent = true ∧
    firstFault (.decthr 0x12#8) (onReset { xerr := 1#1 }) = some (.badAddress 0x12#8) ∧
    firstFault .deccur (onReset { xerr := 1#1 }) = some (.transport 0#8) ∧
    firstFault .deccur (onReset {}) = some .staleCalibration ∧
    firstFault (.pack 0#2 0#1 4#6 12#6) (onReset { vi := 16#80 }) = some (.codecRange 4) ∧
    (onCal {}).calCoherent = true ∧ firstFault .deccur (onCal {}) = none := by decide

/-- CommandsRaiseOnlyTheirFaults. -/
theorem test_witness_raisable : Instr.wellFormed (.packr 0x01#8 4#4) = true ∧
    ∃ t, exec (.packr 0x01#8 4#4) (onReset { vi := 8#80 }) = .next t ∧ t.out.flt = some 1#4 :=
  ⟨by decide, _, rfl, rfl⟩

/-- ResultsDependOnPortsAndContextOnly: two states that differ in everything else. -/
theorem test_witness_determined :
    (onCal {}).inp = { onCal {} with dev := [(8, 1#8)], draws := 3, out := { flt := some 0#4 } }.inp ∧
    (onCal {}).context = { onCal {} with dev := [(8, 1#8)], draws := 3, out := { flt := some 0#4 } }.context ∧
    onCal {} ≠ { onCal {} with dev := [(8, 1#8)], draws := 3, out := { flt := some 0#4 } } ∧
    (∃ t, exec .decpwr (onCal {}) = .next t) ∧
    ∃ t, exec .decpwr { onCal {} with dev := [(8, 1#8)], draws := 3, out := { flt := some 0#4 } } = .next t :=
  ⟨by decide, by decide, by decide, ⟨_, rfl⟩, _, rfl⟩

/-- TransportErrorReachesTheConsumersOfWi: both clauses, at the boundary operands. -/
theorem test_witness_transport : (onReset { xerr := 1#1, xinfo := 0x5A#8 }).inp.xerr = 1#1 ∧
    consumesWi (.decthr 0x11#8) = true ∧ operandFault (.decthr 0x11#8) = none ∧
    consumesWi (.unpack 0#2 0#1 4#6 12#6) = true ∧ operandFault (.unpack 0#2 0#1 4#6 12#6) = none ∧
    consumesWi (.packr 0x01#8 4#4) = true ∧ operandFault (.packr 0x01#8 4#4) = none ∧
    consumesWi (.encthr 0x0C#8) = false := by decide

/-- StaleCalibrationIsReported: its three cases. -/
theorem test_witness_stale : (onReset {}).inp.xerr = 0#1 ∧ (onReset {}).calValid = 0#1 ∧
    Instr.deceng ∈ [Instr.deccur, .decpwr, .deceng, .decchg] ∧
    Instr.rdctx 3#3 ∈ [Instr.enccal, .enctco, .rdctx 0#3, .rdctx 1#3, .rdctx 2#3, .rdctx 3#3] ∧
    Instr.dectemp ∈ [Instr.decvsh 0#1, .decvsh 1#1, .decvbus, .dectemp] ∧
    ∃ t, exec .dectemp (onReset {}) = .next t :=
  ⟨by decide, by decide, by decide, by decide, by decide, _, rfl⟩

/-- UnpackDeliversTheField and PackReplacesOnlyTheField: descriptors on both sides of each bound of R121. -/
theorem test_witness_descriptor :
    LegalDesc 0#2 (16#6).toNat (0#6).toNat ∧ LegalDesc 0#2 (1#6).toNat (15#6).toNat ∧
    LegalDesc 1#2 (20#6).toNat (4#6).toNat ∧ LegalDesc 2#2 (40#6).toNat (0#6).toNat ∧
    ¬LegalDesc 0#2 (4#6).toNat (13#6).toNat ∧ ¬LegalDesc 2#2 (41#6).toNat (0#6).toNat ∧
    ¬LegalDesc 0#2 (0#6).toNat (0#6).toNat ∧ ¬LegalDesc 3#2 (4#6).toNat (0#6).toNat := by
  unfold LegalDesc regBits; decide

/-- PackReplacesOnlyTheField: values on both sides of each bound of R122, under both policies. -/
theorem test_witness_range :
    InRange 0#1 4 (onReset { vi := 15#80 }).inp.vi ∧ ¬InRange 0#1 4 (onReset { vi := 16#80 }).inp.vi ∧
    InRange 1#1 20 (onReset { vi := BitVec.ofInt 80 (-524288) }).inp.vi ∧
    ¬InRange 1#1 20 (onReset { vi := BitVec.ofInt 80 (-524289) }).inp.vi ∧
    ¬InRange 1#1 20 (onReset { vi := 524288#80 }).inp.vi ∧ (onReset { vi := 16#80 }).strict = 1#1 ∧
    (onReset { vi := 16#80 }).inp.xerr = 0#1 ∧ (onLenient { vi := 16#80 }).strict = 0#1 := by decide

/-- RmapAnswersFromTheMap: its three cases, at the ends of the widest field list. -/
theorem test_witness_rmap : rmapLookup 0x12#8 = none ∧ rmapLookup 0x0B#8 = some recDiagFlags ∧
    recDiagFlags.fields.length ≤ (15#4).toNat ∧
    recDiagFlags.fields[(14#4).toNat]? = some (flagField "checksum_error" 0#6) := by decide

/-- UnpackrDeliversTheMappedField and PackrReplacesOnlyTheMappedField: an index on each side of the bound, each
port condition, a value on each side of the range. -/
theorem test_witness_mapField : mapField 0x01#8 5#4 = none ∧ mapField 0x12#8 0#4 = none ∧
    mapField 0x01#8 4#4 = some (.w16, ⟨"averaging_count", 0#6, 3#6, 0#1⟩) ∧
    (onReset { xerr := 1#1 }).inp.xerr = 1#1 ∧ (onReset { vi := 8#80 }).inp.xerr = 0#1 ∧
    ¬InRange 0#1 (3#6).toNat (onReset { vi := 8#80 }).inp.vi ∧ (onReset { vi := 8#80 }).strict = 1#1 ∧
    InRange 0#1 (3#6).toNat (onReset { vi := 7#80 }).inp.vi := by decide

/-- RegisterMapInvariants, second clause. -/
theorem test_witness_mapped : rmapLookup 0x11#8 = some (recThreshold 0x11#8 "power_over_threshold") := by decide

/-- PackAndUnpackAreInverse, at the least value of the widest signed field. -/
theorem test_witness_inverse : LegalDesc 2#2 (40#6).toNat (0#6).toNat ∧
    (onReset { vi := BitVec.ofInt 80 (-549755813888) }).inp.xerr = 0#1 ∧
    InRange 1#1 (40#6).toNat (onReset { vi := BitVec.ofInt 80 (-549755813888) }).inp.vi := by
  unfold LegalDesc regBits; decide

/-- PackLeavesDisjointFieldsAlone: two fields that touch, under either policy. -/
theorem test_witness_disjoint : LegalDesc 0#2 (4#6).toNat (12#6).toNat ∧ LegalDesc 0#2 (3#6).toNat (9#6).toNat ∧
    (onReset { vi := 15#80 }).inp.xerr = 0#1 ∧ InRange 0#1 (4#6).toNat (onReset { vi := 15#80 }).inp.vi ∧
    (onLenient { vi := 99#80 }).strict = 0#1 ∧ (9#6).toNat + (3#6).toNat ≤ (12#6).toNat := by
  unfold LegalDesc regBits; decide

/-- The port and context conditions of DeccfgHidesThePulses, DecadcReportsTheFields, DecflgReportsEachBit,
MaskalrtKeepsOnlyConfigurationBits and the Dec…IsTheExactProduct statements. -/
theorem test_witness_ports : (onReset { xerr := 1#1 }).inp.xerr = 1#1 ∧ (onReset {}).inp.xerr = 0#1 ∧
    (onReset {}).calValid = 0#1 ∧ (onCal {}).inp.xerr = 0#1 ∧ (onCal {}).calValid = 1#1 ∧
    (onCal {}).curLsb = some 1250000#32 ∧ (onCal {}).pwrLsb = some 4000000#32 := by decide

/-- CalibrationWordsFromTheContext and RdctxReadsTheContext, with the selectors where its clauses meet. -/
theorem test_witness_context : (onReset {}).calValid = 0#1 ∧ (onCal {}).calValid = 1#1 ∧
    (onCal {}).shuntCal = some 4096#15 ∧ (onCal {}).tempco = some 0x3FFF#14 ∧
    (onCal {}).curLsb = some 1250000#32 ∧ (onCal {}).pwrLsb = some 4000000#32 ∧
    (3#3).toNat ≤ 3 ∧ (4#3).toNat = 4 ∧ 4 < (5#3).toNat ∧
    (onReset { cmd := 0x54000005#32 }).inp.rst = 0#1 ∧
    (onReset { cmd := 0x54000005#32 }).inp.cmd = encode (.rdctx 5#3) := by decide

/-- MeasurementsAreMonotone: the two extremes of the current field. -/
theorem test_witness_monotone :
    valueOf 1#1 20 (fieldNat 24 4 20 0x800000#40) ≤ valueOf 1#1 20 (fieldNat 24 4 20 0x7FFFF0#40) ∧
    ∃ t₁ t₂ v₁ v₂, exec .deccur ((onCal {}).withTransport 0x800000#40 0#1 0#8) = .next t₁ ∧
      exec .deccur ((onCal {}).withTransport 0x7FFFF0#40 0#1 0#8) = .next t₂ ∧
      t₁.out.vo = some v₁ ∧ t₂.out.vo = some v₂ :=
  ⟨by decide, _, _, _, _, rfl, rfl, rfl, rfl⟩

/-- EncthrPassesTheThresholdThrough and DecthrPassesTheThresholdThrough: addresses and values at each bound. -/
theorem test_witness_threshold : (0x0B#8).toNat < 0x0C ∧ 0x11 < (0x12#8).toNat ∧ 0x0C ≤ (0x0C#8).toNat ∧
    (0x11#8).toNat ≤ 0x11 ∧ 0xFFFF < (onReset { vi := 0x10000#80 }).inp.vi.toNat ∧
    (onReset { vi := 0x10000#80 }).strict = 1#1 ∧ (onReset { vi := 0xFFFF#80 }).inp.vi.toNat ≤ 0xFFFF ∧
    (onLenient { vi := 0x10000#80 }).strict = 0#1 ∧ (onReset { xerr := 1#1 }).inp.xerr = 1#1 ∧
    (onReset {}).inp.xerr = 0#1 := by decide

/-- BytesTravelMostSignificantFirst: the longest list and the largest count. -/
theorem test_witness_bytes : [1#8, 2#8, 3#8, 4#8, 5#8].length ≤ 5 ∧ 5 ≤ 5 := by decide

/-- AccessesNeedTheRegistersWidth: an unmapped address, a wrong size, the right size. -/
theorem test_witness_access : rmapLookup 0x12#8 = none ∧
    rmapLookup 0x04#8 = some (recMeasure 0x04#8 "shunt_voltage" .w24 4#6 20#6 1#1) ∧
    2 * 8 ≠ RegWidth.w24.bits ∧ 3 * 8 = RegWidth.w24.bits := by decide

/-- SettingsReadBackAsWritten: each register with its field, the thresholds at both ends; on an unwritten device the
two reads and the write with its read all answer. -/
theorem test_witness_settings : ((0x01#8 = 0x01#8 ∧ 16 = 16) ∧ (0x02#8 = 0x02#8 ∧ 15 = 15) ∧ (0x03#8 = 0x03#8 ∧ 14 = 14) ∧
    (0x0C ≤ (0x0C#8).toNat ∧ (0x0C#8).toNat ≤ 0x11) ∧ 0x0C ≤ (0x11#8).toNat ∧ (0x11#8).toNat ≤ 0x11) ∧
    (∃ t u, busRead 0x02#8 2 none State.reset = .next t ∧ busRead 0x02#8 2 none t = .next u) ∧
    ∃ t u, busWrite 0x11#8 2 0xFFFF#40 false State.reset = .next t ∧ busRead 0x11#8 2 none t = .next u :=
  ⟨by decide, ⟨_, _, rfl, rfl⟩, _, _, rfl, rfl⟩

/-- HostBitsReadBackAsWritten: the largest word that is no reset pulse. -/
theorem test_witness_hostBits : (0x7FFF#40).toNat / 2 ^ 15 % 2 = 0 ∧ isResetPulse 0x00#8 0x7FFF#40 = false ∧
    isResetPulse 0x00#8 0x8000#40 = true := by decide

/-- FailedReadReachesTheCommand. -/
theorem test_witness_failedRead : ∃ t, busRead 0x04#8 3 (some 0x5A#8) State.reset = .next t ∧
    consumesWi (.decvsh 0#1) = true ∧ operandFault (.decvsh 0#1) = none := ⟨_, rfl, by decide, by decide⟩

end Sys2Proof.Tests
end

section
/-! PROOFS. The statements of 10_state.md: what a step and a command can do to the state, what their results depend
on, and the Register Map. -/

namespace Sys2Proof.Machine

/-! ### The step, case by case (10_state.md R24) -/

theorem step_reset {s : State} (h : s.inp.rst = 1#1) : step s = .next s.blockReset := by
  simp [step, h]

theorem step_command {s : State} {i : Instr} (h : s.inp.rst = 0#1) (hi : decode s.inp.cmd = .instr i) :
    step s = exec i s := by
  simp [step, fetch, h, hi]

theorem step_illegal {s : State} {why : Reject} {op : BitVec 6} (h : s.inp.rst = 0#1)
    (hi : decode s.inp.cmd = .illegal why op) : step s = raise (.illegalCommand op) s := by
  simp [step, fetch, h, hi]

/-- Everything a step can be: a reset step, a command, or IllegalCommand. -/
theorem step_eq_next_cases {s t : State} (h : step s = .next t) :
    t = s.blockReset ∨ (∃ i, exec i s = .next t) ∨ ∃ op, t = s.drive (CmdFault.illegalCommand op).outputs := by
  rcases bit_cases s.inp.rst with h0 | h1
  · cases hd : decode s.inp.cmd with
    | instr i => exact .inr (.inl ⟨i, step_command h0 hd ▸ h⟩)
    | illegal why op =>
      rw [step_illegal h0 hd, raise_eq] at h
      cases h
      exact .inr (.inr ⟨op, rfl⟩)
  · rw [step_reset h1] at h
    cases h
    exact .inl rfl

/-- Settles O6, by the command case of the step. -/
theorem stepRunsTheCommandOnCmd : Obligations.StepRunsTheCommandOnCmd :=
  fun _ _ h0 hd => step_command h0 hd

/-- Settles O8: the reset state is written field by field. -/
theorem resetValuesOfTheContext : Obligations.ResetValuesOfTheContext :=
  ⟨rfl, rfl, rfl, rfl, rfl, rfl⟩

/-! ### What a command leaves unchanged (10_state.md R25, R26, R28) -/

@[simp] theorem contextAfter_inp (i : Instr) (s : State) : (contextAfter i s).inp = s.inp := by cases i <;> rfl
@[simp] theorem contextAfter_dev (i : Instr) (s : State) : (contextAfter i s).dev = s.dev := by cases i <;> rfl
@[simp] theorem contextAfter_draws (i : Instr) (s : State) : (contextAfter i s).draws = s.draws := by cases i <;> rfl

/-- The five calibration registers are equal. -/
def SameCal (t s : State) : Prop :=
  t.calValid = s.calValid ∧ t.shuntCal = s.shuntCal ∧ t.tempco = s.tempco ∧ t.curLsb = s.curLsb ∧
    t.pwrLsb = s.pwrLsb

theorem contextAfter_sameCal {i : Instr} (s : State) (h1 : i ≠ .setcal) (h2 : i ≠ .clrcal) :
    SameCal (contextAfter i s) s := by
  cases i with
  | setcal => exact absurd rfl h1
  | clrcal => exact absurd rfl h2
  | _ => exact ⟨rfl, rfl, rfl, rfl, rfl⟩

theorem contextAfter_strict {i : Instr} (s : State) (h : ∀ b, i ≠ .setctl b) :
    (contextAfter i s).strict = s.strict := by
  cases i with
  | setctl b => exact absurd rfl (h b)
  | _ => rfl

/-- Everything a command can answer: a fault's ports on the state it was given, or its outputs on the context it
leaves. -/
theorem exec_eq_next_cases {i : Instr} {s t : State} (h : exec i s = .next t) :
    (∃ f : CmdFault, t = s.drive f.outputs) ∨
      ∃ o : Outputs, t = (contextAfter i s).drive { o with flt := some 0#4, finfo := none } := by
  rcases exec_answers i s with ⟨f, hf⟩ | ⟨o, ho⟩
  · exact .inl ⟨f, by simpa [hf] using h.symm⟩
  · exact .inr ⟨o, by simpa [ho] using h.symm⟩

/-- Settles O13: a fault drives ports only, and a completed command writes what `contextAfter` says. -/
theorem commandsTouchNothingElse : Obligations.CommandsTouchNothingElse := by
  intro i s t h
  rcases exec_eq_next_cases h with ⟨f, rfl⟩ | ⟨o, rfl⟩
  · exact ⟨rfl, rfl, rfl, fun _ => rfl, fun _ _ => ⟨rfl, rfl, rfl, rfl, rfl⟩, fun _ => rfl⟩
  · exact ⟨contextAfter_inp i s, contextAfter_draws i s, contextAfter_dev i s, fun key => by simp,
      contextAfter_sameCal s, contextAfter_strict s⟩

/-! ### The invariant (10_state.md R27) -/

@[simp] theorem loadCal_calCoherent (s : State) (k : CalIn) : (s.loadCal k).calCoherent = true := rfl
@[simp] theorem dropCal_calCoherent (s : State) : s.dropCal.calCoherent = true := rfl
@[simp] theorem blockReset_calCoherent (s : State) : s.blockReset.calCoherent = true := rfl

theorem contextAfter_calCoherent (i : Instr) {s : State} (h : s.calCoherent = true) :
    (contextAfter i s).calCoherent = true := by
  cases i with
  | setcal => exact loadCal_calCoherent s s.inp.ki
  | clrcal => exact dropCal_calCoherent s
  | _ => exact h

theorem CmdFault.outputs_wellDriven (f : CmdFault) : f.outputs.wellDriven := .inr (.inr ⟨f, rfl⟩)

theorem completed_wellDriven (o : Outputs) :
    Outputs.wellDriven { o with flt := some 0#4, finfo := none } := .inr (.inl ⟨rfl, rfl⟩)

theorem State.Inv.blockReset {s : State} (h : s.Inv) : s.blockReset.Inv where
  cal := blockReset_calCoherent s
  out := .inl rfl
  dev := h.dev

theorem State.Inv.drive {s : State} (h : s.Inv) {o : Outputs} (ho : o.wellDriven) : (s.drive o).Inv where
  cal := h.cal
  out := ho
  dev := h.dev

theorem State.Inv.contextAfter {s : State} (h : s.Inv) (i : Instr) {o : Outputs} (ho : o.wellDriven) :
    ((contextAfter i s).drive o).Inv where
  cal := contextAfter_calCoherent i h.cal
  out := ho
  dev := (congrArg Memory.wf (contextAfter_dev i s)).trans h.dev

theorem exec_keeps_inv {i : Instr} {s t : State} (hs : s.Inv) (h : exec i s = .next t) : t.Inv := by
  rcases exec_eq_next_cases h with ⟨f, rfl⟩ | ⟨o, rfl⟩
  · exact hs.drive f.outputs_wellDriven
  · exact hs.contextAfter i (completed_wellDriven o)

/-- Settles O10, by the three kinds of step. -/
theorem stepKeepsTheInvariant : Obligations.StepKeepsTheInvariant := by
  intro s t hs h
  rcases step_eq_next_cases h with rfl | ⟨i, hi⟩ | ⟨op, rfl⟩
  · exact hs.blockReset
  · exact exec_keeps_inv hs hi
  · exact hs.drive (CmdFault.outputs_wellDriven _)

/-! ### What results depend on (10_state.md R20, R28)

Two states that show a command the same ports and context stay alike through every shared operation, so through every
command built from them. -/

/-- The states agree in all that a command may read. -/
structure SameView (s₁ s₂ : State) : Prop where
  inp : s₁.inp = s₂.inp
  context : s₁.context = s₂.context

/-- Both answers are next states, with equal outputs and equal context registers. -/
def Agree (r₁ r₂ : Result) : Prop :=
  ∃ t₁ t₂, r₁ = .next t₁ ∧ r₂ = .next t₂ ∧ t₁.out = t₂.out ∧ t₁.context = t₂.context

namespace SameView

variable {s₁ s₂ : State} (h : SameView s₁ s₂)
include h

theorem strict : s₁.strict = s₂.strict := congrArg Context.strict h.context
theorem calValid : s₁.calValid = s₂.calValid := congrArg Context.calValid h.context
theorem shuntCal : s₁.shuntCal = s₂.shuntCal := congrArg Context.shuntCal h.context
theorem tempco : s₁.tempco = s₂.tempco := congrArg Context.tempco h.context
theorem curLsb : s₁.curLsb = s₂.curLsb := congrArg Context.curLsb h.context
theorem pwrLsb : s₁.pwrLsb = s₂.pwrLsb := congrArg Context.pwrLsb h.context

theorem statusBits : s₁.statusBits = s₂.statusBits := by
  simp [State.statusBits, h.strict, h.calValid]

theorem loadCal_context : (s₁.loadCal s₁.inp.ki).context = (s₂.loadCal s₂.inp.ki).context := by
  simp [State.context, h.strict, h.inp]

theorem dropCal_context : s₁.dropCal.context = s₂.dropCal.context := by
  simp [State.context, h.strict]

theorem setStrict_context (b : Bit) : (s₁.setStrict b).context = (s₂.setStrict b).context := by
  simp [State.context, h.calValid, h.shuntCal, h.tempco, h.curLsb, h.pwrLsb]

end SameView

theorem agree_complete {s₁ s₂ : State} (hc : s₁.context = s₂.context) {o₁ o₂ : Outputs} (ho : o₁ = o₂) :
    Agree (complete o₁ s₁) (complete o₂ s₂) := ⟨_, _, rfl, rfl, by rw [ho]; rfl, hc⟩

theorem agree_raise {s₁ s₂ : State} (h : SameView s₁ s₂) (f : CmdFault) : Agree (raise f s₁) (raise f s₂) :=
  ⟨_, _, rfl, rfl, rfl, h.context⟩

section
variable {s₁ s₂ : State} (h : SameView s₁ s₂)
include h

theorem agree_consumeWi {k₁ k₂ : RegWord → Result} (hk : ∀ wi, Agree (k₁ wi) (k₂ wi)) :
    Agree (consumeWi s₁ k₁) (consumeWi s₂ k₂) := by
  unfold consumeWi
  rw [h.inp]
  split
  · exact agree_raise h _
  · exact hk _

theorem agree_withCal {w : Nat} {r₁ r₂ : Option (BitVec w)} (hr : r₁ = r₂) {k₁ k₂ : BitVec w → Result}
    (hk : ∀ v, Agree (k₁ v) (k₂ v)) : Agree (withCal s₁ r₁ k₁) (withCal s₂ r₂ k₂) := by
  have hread : s₁.calReg r₁ = s₂.calReg r₂ := by simp [State.calReg, h.calValid, hr]
  unfold withCal
  rw [hread]
  cases s₂.calReg r₂ with
  | none => exact agree_raise h _
  | some v => exact hk v

theorem agree_checkRange {sgn : Bit} {width : Nat} {k₁ k₂ : Int → Result} (hk : ∀ v, Agree (k₁ v) (k₂ v)) :
    Agree (checkRange s₁ sgn width k₁) (checkRange s₂ sgn width k₂) := by
  unfold checkRange
  rw [h.inp, h.strict]
  split
  · exact agree_raise h _
  · exact hk _

theorem agree_withDescriptor {rw : BitVec 2} {width off : BitVec 6} {k₁ k₂ : RegWidth → Result}
    (hk : ∀ W, Agree (k₁ W) (k₂ W)) :
    Agree (withDescriptor rw width off s₁ k₁) (withDescriptor rw width off s₂ k₂) := by
  unfold withDescriptor
  cases descWidth rw width off with
  | none => exact agree_raise h _
  | some W => exact hk W

theorem agree_withMapField {addr : RegAddr} {idx : BitVec 4} {k₁ k₂ : RegWidth → FieldDesc → Result}
    (hk : ∀ W d, Agree (k₁ W d) (k₂ W d)) :
    Agree (withMapField addr idx s₁ k₁) (withMapField addr idx s₂ k₂) := by
  unfold withMapField
  cases mapField addr idx with
  | none => exact agree_raise h _
  | some e => exact hk e.1 e.2

theorem agree_withThreshold {addr : RegAddr} {r₁ r₂ : Result} (hr : Agree r₁ r₂) :
    Agree (withThreshold addr s₁ r₁) (withThreshold addr s₂ r₂) := by
  unfold withThreshold
  split
  · exact hr
  · exact agree_raise h _

/-- The shape of a command that decodes `wi`. -/
theorem agree_decode (o : RegWord → Outputs) :
    Agree (consumeWi s₁ fun wi => complete (o wi) s₁) (consumeWi s₂ fun wi => complete (o wi) s₂) :=
  agree_consumeWi h fun _ => agree_complete h.context rfl

/-- The shape of a command that scales `wi` by a calibration register. -/
theorem agree_scale {w : Nat} {r₁ r₂ : Option (BitVec w)} (hr : r₁ = r₂) (o : RegWord → BitVec w → Outputs) :
    Agree (consumeWi s₁ fun wi => withCal s₁ r₁ fun k => complete (o wi k) s₁)
      (consumeWi s₂ fun wi => withCal s₂ r₂ fun k => complete (o wi k) s₂) :=
  agree_consumeWi h fun _ => agree_withCal h hr fun _ => agree_complete h.context rfl

theorem agree_unpackFrom (W : RegWidth) (sgn : Bit) (width off : Nat) :
    Agree (unpackFrom W sgn width off s₁) (unpackFrom W sgn width off s₂) := agree_decode h _

theorem agree_packInto (W : RegWidth) (sgn : Bit) (width off : Nat) :
    Agree (packInto W sgn width off s₁) (packInto W sgn width off s₂) :=
  agree_consumeWi h fun _ => agree_checkRange h fun _ => agree_complete h.context rfl

theorem execRdctx_agree (sel : BitVec 3) : Agree (execRdctx sel s₁) (execRdctx sel s₂) := by
  unfold execRdctx
  split
  · exact agree_withCal h h.shuntCal fun _ => agree_complete h.context rfl
  split
  · exact agree_withCal h h.tempco fun _ => agree_complete h.context rfl
  split
  · exact agree_withCal h h.curLsb fun _ => agree_complete h.context rfl
  split
  · exact agree_withCal h h.pwrLsb fun _ => agree_complete h.context rfl
  split
  · exact agree_complete h.context (by rw [h.statusBits])
  · exact agree_raise h _

/-- Every command answers alike on states with one view. -/
theorem exec_agree (i : Instr) : Agree (exec i s₁) (exec i s₂) := by
  unfold exec
  cases i with
  | nop | rmap | muxsel | ctsel | avgsel | rngsel | encalrt => exact agree_complete h.context rfl
  | enccfg | encadc => exact agree_complete h.context (by rw [h.inp])
  | setcal => exact agree_complete h.loadCal_context rfl
  | clrcal => exact agree_complete h.dropCal_context rfl
  | setctl b => exact agree_complete (h.setStrict_context b) rfl
  | unpack => exact agree_withDescriptor h fun _ => agree_unpackFrom h ..
  | pack => exact agree_withDescriptor h fun _ => agree_packInto h ..
  | unpackr => exact agree_withMapField h fun _ _ => agree_unpackFrom h ..
  | packr => exact agree_withMapField h fun _ _ => agree_packInto h ..
  | deccfg | decadc | decvsh | decvbus | dectemp | decflg | maskalrt =>
    exact agree_decode h _
  | deccur | decchg => exact agree_scale h h.curLsb _
  | decpwr | deceng => exact agree_scale h h.pwrLsb _
  | enccal => exact agree_withCal h h.shuntCal fun _ => agree_complete h.context rfl
  | enctco => exact agree_withCal h h.tempco fun _ => agree_complete h.context rfl
  | rdctx sel => exact execRdctx_agree h sel
  | encthr => exact agree_withThreshold h (agree_checkRange h fun _ => agree_complete h.context rfl)
  | decthr => exact agree_withThreshold h (agree_consumeWi h fun _ => agree_complete h.context rfl)

end

/-- Settles O18: equal ports and context are all that `exec_agree` asks. -/
theorem resultsDependOnPortsAndContextOnly : Obligations.ResultsDependOnPortsAndContextOnly := by
  intro i s₁ s₂ t₁ t₂ hinp hcontext h₁ h₂
  obtain ⟨u₁, u₂, e₁, e₂, hout, hctx⟩ := exec_agree ⟨hinp, hcontext⟩ i
  obtain rfl : u₁ = t₁ := by simpa [e₁] using h₁
  obtain rfl : u₂ = t₂ := by simpa [e₂] using h₂
  exact ⟨hout, hctx⟩

/-! ### The Register Map (10_state.md R30 to R47) -/

theorem regTable_rows : regTable.map RegRecord.row = specMap := by decide

theorem rmapLookup_row (addr : RegAddr) : (rmapLookup addr).map RegRecord.row = specRow addr := by
  have haddr : (fun e : SpecRow => e.addr == addr.toNat) ∘ RegRecord.row = fun r => r.addr == addr := by
    funext r
    simp [RegRecord.row, BitVec.toNat_inj]
  unfold rmapLookup specRow
  rw [← regTable_rows, List.find?_map, haddr]

/-- The field a lookup finds is that of the looked-up record's row. -/
theorem mapField_row (addr : RegAddr) (idx : BitVec 4) :
    (mapField addr idx).map (fun e => (e.1.bits, e.2.off.toNat, e.2.width.toNat, e.2.sgn.toNat)) =
      ((rmapLookup addr).map RegRecord.row).bind fun row =>
        (row.fields[idx.toNat]?).map fun f => (row.bits, f.1, f.2.1, f.2.2) := by
  unfold mapField
  cases rmapLookup addr with
  | none => rfl
  | some r => simp [RegRecord.row, Function.comp_def]

/-- Settles O27: the table's rows are the spec's, and both lookups commute with `RegRecord.row`. -/
theorem registerMapIsTheSpecsTable : Obligations.RegisterMapIsTheSpecsTable := by
  refine ⟨regTable_rows, rmapLookup_row, fun addr idx => ?_⟩
  rw [mapField_row, rmapLookup_row]
  cases specRow addr <;> rfl

theorem regTable_addrs : regTable.map (fun r => r.addr.toNat) = List.range 0x12 ++ [0x3E, 0x3F] := by decide

/-- 10_state.md R46: the mapped addresses. -/
theorem rmapLookup_isSome_iff (addr : RegAddr) :
    (rmapLookup addr).isSome = true ↔ addr.toNat ≤ 0x11 ∨ addr.toNat = 0x3E ∨ addr.toNat = 0x3F := by
  calc (rmapLookup addr).isSome = true
      ↔ addr.toNat ∈ regTable.map (fun r => r.addr.toNat) := by
        simp [rmapLookup, List.find?_isSome, BitVec.toNat_inj]
    _ ↔ addr.toNat ≤ 0x11 ∨ addr.toNat = 0x3E ∨ addr.toNat = 0x3F := by
        rw [regTable_addrs]
        simp only [List.mem_append, List.mem_range, List.mem_cons, List.not_mem_nil, or_false]
        omega

/-- 10_state.md R30: `nfields` is 1 to 15. -/
theorem regTable_nfields : ∀ r ∈ regTable, 1 ≤ r.fields.length ∧ r.fields.length ≤ 15 := by decide

/-- Settles O28: what is looked up is a record of the table, and the table's records are checked one by one. -/
theorem registerMapInvariants : Obligations.RegisterMapInvariants := by
  refine ⟨rmapLookup_isSome_iff, fun addr r h => ?_⟩
  obtain ⟨hmem, haddr⟩ := rmapLookup_mem h
  obtain ⟨hpos, hmax⟩ := regTable_nfields r hmem
  refine ⟨haddr, hpos, hmax, fun d hd => ?_, regTable_disjoint r hmem⟩
  obtain ⟨hwidth, -, hinside⟩ := regTable_legal r hmem d hd
  exact ⟨hwidth, hinside⟩

end Sys2Proof.Machine
end

section
/-! PROOFS. The statements of 20_memory.md: the byte order of the bus, which accesses have a meaning, what a read finds
after a write and after another read, and where a failed read shows. -/

namespace Sys2Proof.Machine

/-! ### Bytes and words (20_memory.md R64) -/

theorem byte_shift_lt (b : Byte) (k : Nat) : b.toNat * 2 ^ k < 2 ^ (k + 8) := by
  rw [pow_add, Nat.mul_comm]
  exact Nat.mul_lt_mul_of_pos_left b.isLt (by positivity)

theorem wordOfBytes_lt (bs : List Byte) : (wordOfBytes bs).toNat < 2 ^ (8 * bs.length) := by
  induction bs with
  | nil => simp [wordOfBytes]
  | cons b bs ih =>
    rw [wordOfBytes, BitVec.toNat_or, BitVec.toNat_shiftLeft, Nat.shiftLeft_eq, List.length_cons, Nat.mul_succ]
    refine Nat.or_lt_two_pow ?_ (ih.trans_le (Nat.pow_le_pow_right (by decide) (by omega)))
    calc (b.setWidth 40).toNat * 2 ^ (8 * bs.length) % 2 ^ 40
        ≤ b.toNat * 2 ^ (8 * bs.length) :=
          (Nat.mod_le _ _).trans (Nat.mul_le_mul_right _ (by simpa using Nat.mod_le _ _))
      _ < 2 ^ (8 * bs.length + 8) := byte_shift_lt b _

/-- The first byte on the bus has the highest weight. -/
theorem wordOfBytes_cons_toNat (b : Byte) {bs : List Byte} (h : bs.length < 5) :
    (wordOfBytes (b :: bs)).toNat = b.toNat * 2 ^ (8 * bs.length) + (wordOfBytes bs).toNat := by
  have hfits : b.toNat * 2 ^ (8 * bs.length) < 2 ^ 40 :=
    (byte_shift_lt b _).trans_le (Nat.pow_le_pow_right (by decide) (by omega))
  rw [wordOfBytes, BitVec.toNat_or, BitVec.toNat_shiftLeft, BitVec.toNat_setWidth_of_le (by decide), Nat.shiftLeft_eq,
    Nat.mod_eq_of_lt hfits, shifted_or _ _ _ (wordOfBytes_lt bs)]

theorem wordOfBytes_toNat_eq_ofDigits {bs : List Byte} (h : bs.length ≤ 5) :
    (wordOfBytes bs).toNat = Nat.ofDigits 256 (bs.map BitVec.toNat).reverse := by
  induction bs with
  | nil => rfl
  | cons b bs ih =>
    rw [List.length_cons] at h
    rw [wordOfBytes_cons_toNat b h, ih (by omega), List.map_cons, List.reverse_cons, Nat.ofDigits_append,
      Nat.ofDigits_singleton, List.length_reverse, List.length_map, pow_mul]
    ring

theorem wordOfBytes_bytesOfWord_toNat (w : RegWord) {n : Nat} (h : n ≤ 5) :
    (wordOfBytes (bytesOfWord w n)).toNat = w.toNat % 2 ^ (8 * n) := by
  induction n with
  | zero => simp [bytesOfWord, wordOfBytes, Nat.mod_one]
  | succ n ih =>
    rw [bytesOfWord, wordOfBytes_cons_toNat _ (by simpa using h), ih (by omega), bytesOfWord_length, Nat.mul_succ,
      pow_add, Nat.mod_mul, BitVec.toNat_setWidth, BitVec.toNat_ushiftRight, Nat.shiftRight_eq_div_pow]
    ring

/-- Words of equally many bytes are equal only when the bytes are. -/
theorem wordOfBytes_inj {as bs : List Byte} (hlen : as.length = bs.length) (h : bs.length ≤ 5)
    (heq : wordOfBytes as = wordOfBytes bs) : as = bs := by
  have hdigits : (as.map BitVec.toNat).reverse = (bs.map BitVec.toNat).reverse := by
    refine Nat.ofDigits_inj_of_len_eq (b := 256) (by decide) (by simp [hlen]) ?_ ?_ ?_
    · simpa using fun b _ => b.isLt
    · simpa using fun b _ => b.isLt
    · rw [← wordOfBytes_toNat_eq_ofDigits (hlen ▸ h), ← wordOfBytes_toNat_eq_ofDigits h, heq]
  exact List.map_injective_iff.mpr (fun _ _ => BitVec.eq_of_toNat_eq) (List.reverse_injective hdigits)

theorem bytesOfWord_wordOfBytes {bs : List Byte} (h : bs.length ≤ 5) :
    bytesOfWord (wordOfBytes bs) bs.length = bs := by
  refine wordOfBytes_inj (bytesOfWord_length _ _) h (BitVec.eq_of_toNat_eq ?_)
  rw [wordOfBytes_bytesOfWord_toNat _ h, Nat.mod_eq_of_lt (wordOfBytes_lt bs)]

/-- Settles O56, by induction on the bytes and on their number. -/
theorem bytesTravelMostSignificantFirst : Obligations.BytesTravelMostSignificantFirst :=
  ⟨fun _ h => ⟨wordOfBytes_toNat_eq_ofDigits h, bytesOfWord_wordOfBytes h⟩,
    fun w _ h => wordOfBytes_bytesOfWord_toNat w h⟩

/-! ### Which accesses have a meaning (20_memory.md R63) -/

theorem RegWidth.bits_eq_bytes_mul (W : RegWidth) : W.bits = W.bytes * 8 := by cases W <;> rfl

theorem withRegister_unmapped {addr : RegAddr} (h : rmapLookup addr = none) (n : Nat) (k : RegRecord → Result) :
    withRegister addr n k = .fault (.unmappedAddress addr) := by
  simp [withRegister, h]

theorem withRegister_wrongSize {addr : RegAddr} {r : RegRecord} (h : rmapLookup addr = some r) {n : Nat}
    (hn : n ≠ r.rw.bytes) (k : RegRecord → Result) : withRegister addr n k = .refused (.accessSize addr n) := by
  simp [withRegister, h, hn]

theorem withRegister_rightSize {addr : RegAddr} {r : RegRecord} (h : rmapLookup addr = some r)
    (k : RegRecord → Result) : withRegister addr r.rw.bytes k = k r := by
  simp [withRegister, h]

/-- The state a successful read of a register leaves. -/
def State.afterRead (s : State) (r : RegRecord) : State :=
  ((s.learnWord r (deviceWord s r)).presentRead (wordOfBytes (bytesOfWord (deviceWord s r) r.rw.bytes))).countDraw

theorem busRead_good {addr : RegAddr} {r : RegRecord} (h : rmapLookup addr = some r) (s : State) :
    busRead addr r.rw.bytes none s = .next (s.afterRead r) :=
  withRegister_rightSize h _

theorem busRead_failed {addr : RegAddr} {r : RegRecord} (h : rmapLookup addr = some r) (code : BitVec 8) (s : State) :
    busRead addr r.rw.bytes (some code) s = .next (s.presentFailure code) :=
  withRegister_rightSize h _

theorem busWrite_good {addr : RegAddr} {r : RegRecord} (h : rmapLookup addr = some r) (ha : r.access ≠ .readOnly)
    {w : RegWord} (hw : isResetPulse addr w = false) (s : State) :
    busWrite addr r.rw.bytes w false s = .next (s.holdWord r w) := by
  simp [busWrite, withRegister_rightSize h, ha, hw]

/-- Settles O57, by the three answers of `withRegister`. -/
theorem accessesNeedTheRegistersWidth : Obligations.AccessesNeedTheRegistersWidth := by
  intro addr n s
  refine ⟨fun h f w b => ⟨withRegister_unmapped h n _, withRegister_unmapped h n _⟩, fun r h hn f w b => ?_,
    fun r h hn f => ?_⟩
  · have hsize : n ≠ r.rw.bytes := fun e => hn (by rw [e, r.rw.bits_eq_bytes_mul])
    exact ⟨withRegister_wrongSize h hsize _, withRegister_wrongSize h hsize _⟩
  · obtain rfl : n = r.rw.bytes := by have := r.rw.bits_eq_bytes_mul; omega
    cases f with
    | none => exact ⟨_, busRead_good h s⟩
    | some code => exact ⟨_, busRead_failed h code s⟩

/-! ### What is known of a register (20_memory.md R77)

A write and a read both make the register's kept bits known, and a read of a known register finds them. -/

/-- The kept bits of the register are listed, and are those of this word. -/
def State.Knows (s : State) (r : RegRecord) (w : RegWord) : Prop :=
  ∃ bs, Memory.getBytes s.dev (busKey r.addr 0) r.rw.bytes = some bs ∧
    wordOfBytes bs &&& keptBits r = w &&& keptBits r

/-- The kept bits of a register lie within its width. -/
theorem keptBits_lt : ∀ r ∈ regTable, (keptBits r).toNat < 2 ^ (8 * r.rw.bytes) := by decide

theorem RegWidth.bytes_le (W : RegWidth) : W.bytes ≤ 5 := by cases W <;> decide

/-- Cutting a word to its register's bytes keeps the kept bits. -/
theorem wordOfBytes_bytesOfWord_kept {r : RegRecord} (hr : r ∈ regTable) (w : RegWord) :
    wordOfBytes (bytesOfWord w r.rw.bytes) &&& keptBits r = w &&& keptBits r := by
  apply BitVec.eq_of_toNat_eq
  rw [BitVec.toNat_and, BitVec.toNat_and, wordOfBytes_bytesOfWord_toNat w r.rw.bytes_le]
  conv_lhs => rw [← Nat.mod_eq_of_lt (keptBits_lt r hr), ← Nat.and_mod_two_pow]
  exact Nat.mod_eq_of_lt (Nat.and_lt_two_pow _ (keptBits_lt r hr))

theorem holdWord_knows (s : State) {r : RegRecord} (hr : r ∈ regTable) (w : RegWord) :
    (s.holdWord r w).Knows r w := by
  refine ⟨_, holdWord_getBytes s r w, ?_⟩
  rw [wordOfBytes_bytesOfWord_kept hr, BitVec.and_assoc, BitVec.and_self]

theorem learnWord_knows (s : State) {r : RegRecord} (hr : r ∈ regTable) (ha : r.access ≠ .readOnly) :
    (s.learnWord r (deviceWord s r)).Knows r (deviceWord s r) := by
  unfold State.learnWord
  split
  · next h =>
    obtain ⟨bs, hbs⟩ := Option.isSome_iff_exists.mp (h.resolve_left ha)
    exact ⟨bs, hbs, (deviceWord_kept hbs).symm⟩
  · exact holdWord_knows s hr _

@[simp] theorem afterRead_wi (s : State) (r : RegRecord) :
    (s.afterRead r).inp.wi = wordOfBytes (bytesOfWord (deviceWord s r) r.rw.bytes) := rfl

@[simp] theorem afterRead_xerr (s : State) (r : RegRecord) : (s.afterRead r).inp.xerr = 0#1 := rfl

@[simp] theorem afterRead_dev (s : State) (r : RegRecord) :
    (s.afterRead r).dev = (s.learnWord r (deviceWord s r)).dev := rfl

theorem afterRead_context (s : State) (r : RegRecord) : (s.afterRead r).context = s.context := by
  simp [State.afterRead, State.context]

theorem afterRead_wi_lt (s : State) (r : RegRecord) : (s.afterRead r).inp.wi.toNat < 2 ^ (8 * r.rw.bytes) := by
  simpa using wordOfBytes_lt (bytesOfWord (deviceWord s r) r.rw.bytes)

/-- What a read puts on `wi` is known after it. -/
theorem afterRead_knows (s : State) {r : RegRecord} (hr : r ∈ regTable) (ha : r.access ≠ .readOnly) :
    (s.afterRead r).Knows r (s.afterRead r).inp.wi := by
  obtain ⟨bs, hbs, hkept⟩ := learnWord_knows s hr ha
  exact ⟨bs, hbs, hkept.trans (wordOfBytes_bytesOfWord_kept hr _).symm⟩

/-- A read finds the kept bits that are known. -/
theorem State.Knows.read {s : State} {r : RegRecord} {w : RegWord} (h : s.Knows r w) (hr : r ∈ regTable) :
    (s.afterRead r).inp.wi &&& keptBits r = w &&& keptBits r := by
  obtain ⟨bs, hbs, hkept⟩ := h
  calc (s.afterRead r).inp.wi &&& keptBits r
      = deviceWord s r &&& keptBits r := wordOfBytes_bytesOfWord_kept hr _
    _ = wordOfBytes bs &&& keptBits r := deviceWord_kept hbs
    _ = w &&& keptBits r := hkept

/-- A read makes known nothing of another register (20_memory.md R77). -/
theorem afterRead_get_outside (s : State) (r : RegRecord) {key : Nat}
    (h : key < busKey r.addr 0 ∨ busKey r.addr 0 + r.rw.bytes ≤ key) :
    Memory.get (s.afterRead r).dev key = Memory.get s.dev key := by
  obtain ⟨m, hm, hout⟩ := learnWord_eq_setDev s r (deviceWord s r)
  rw [afterRead_dev, hm]
  exact hout key h

/-- A write changes nothing of another register (20_memory.md R77). -/
theorem holdWord_get_outside (s : State) (r : RegRecord) (w : RegWord) {key : Nat}
    (h : key < busKey r.addr 0 ∨ busKey r.addr 0 + r.rw.bytes ≤ key) :
    Memory.get (s.holdWord r w).dev key = Memory.get s.dev key :=
  Memory.get_setBytes_outside _ _ _ (by rwa [bytesOfWord_length])

/-! ### The fields only the host changes (20_memory.md R68, R77) -/

/-- The field at `off` of a register's word, `k` bits wide, is all of a two-byte register that the host's writes
decide, its reserved bits apart. -/
structure HostField (addr : RegAddr) (r : RegRecord) (off k : Nat) : Prop where
  lookup : rmapLookup addr = some r
  size : r.rw.bytes = 2
  writable : r.access ≠ .readOnly
  kept : keptBits r = fmask 40 off k

/-- Words that agree under a field's mask agree in the field. -/
theorem field_eq_of_and_fmask {v w : RegWord} {off k : Nat} (h : v &&& fmask 40 off k = w &&& fmask 40 off k) :
    v.toNat / 2 ^ off % 2 ^ k = w.toNat / 2 ^ off % 2 ^ k := by
  apply Nat.eq_of_testBit_eq
  intro i
  have hbit := congrArg (BitVec.getLsbD · (off + i)) h
  simp only [BitVec.getLsbD_and, fmask_getLsbD] at hbit
  simp only [Nat.testBit_mod_two_pow, Nat.testBit_div_two_pow, BitVec.testBit_toNat]
  rw [Nat.add_comm i off]
  by_cases hk : i < k <;> by_cases h40 : off + i < 40
  · simpa [hk, h40] using hbit
  · simp [BitVec.getLsbD_of_ge _ _ (not_lt.mp h40)]
  all_goals simp [hk]

section
variable {addr : RegAddr} {r : RegRecord} {off k : Nat} (h : HostField addr r off k)
include h

theorem HostField.mem : r ∈ regTable := (rmapLookup_mem h.lookup).1

theorem HostField.read_eq (s : State) : busRead addr 2 none s = .next (s.afterRead r) :=
  h.size ▸ busRead_good h.lookup s

theorem HostField.write_eq {w : RegWord} (hw : isResetPulse addr w = false) (s : State) :
    busWrite addr 2 w false s = .next (s.holdWord r w) :=
  h.size ▸ busWrite_good h.lookup h.writable hw s

theorem HostField.wi_lt (s : State) : (s.afterRead r).inp.wi.toNat < 2 ^ 16 := by
  simpa [h.size] using afterRead_wi_lt s r

/-- A key of another register is outside this one's two bytes. -/
theorem HostField.outside {key : Nat} (hkey : key < 8 * addr.toNat ∨ 8 * addr.toNat + 2 ≤ key) :
    key < busKey r.addr 0 ∨ busKey r.addr 0 + r.rw.bytes ≤ key := by
  rwa [busKey, (rmapLookup_mem h.lookup).2, h.size]

theorem HostField.of_knows {s : State} {w : RegWord} (hs : s.Knows r w) :
    (s.afterRead r).inp.wi.toNat / 2 ^ off % 2 ^ k = w.toNat / 2 ^ off % 2 ^ k :=
  field_eq_of_and_fmask (h.kept ▸ hs.read h.mem)

theorem HostField.after_write (s : State) (w : RegWord) :
    ((s.holdWord r w).afterRead r).inp.wi.toNat / 2 ^ off % 2 ^ k = w.toNat / 2 ^ off % 2 ^ k :=
  h.of_knows (holdWord_knows s h.mem w)

theorem HostField.after_read (s : State) :
    ((s.afterRead r).afterRead r).inp.wi.toNat / 2 ^ off % 2 ^ k = (s.afterRead r).inp.wi.toNat / 2 ^ off % 2 ^ k :=
  h.of_knows (afterRead_knows s h.mem h.writable)

end

theorem isResetPulse_of_ne {addr : RegAddr} (h : addr ≠ 0x00#8) (w : RegWord) : isResetPulse addr w = false := by
  simp [isResetPulse, h]

theorem isResetPulse_of_bit {w : RegWord} (h : w.toNat / 2 ^ 15 % 2 = 0) (addr : RegAddr) :
    isResetPulse addr w = false := by
  have hbit : bitAt w 15 = 0#1 := BitVec.eq_of_toNat_eq (by simpa [bitAt, Nat.shiftRight_eq_div_pow] using h)
  simp [isResetPulse, hbit]

theorem config_hostField : HostField 0x00#8 recConfig 4 10 := ⟨rfl, rfl, by decide, by decide⟩

theorem diagFlags_hostField : HostField 0x0B#8 recDiagFlags 12 4 := ⟨rfl, rfl, by decide, by decide⟩

theorem regTable_thresholds : ∀ r ∈ regTable, 0x0C ≤ r.addr.toNat → r.addr.toNat ≤ 0x11 →
    r.rw.bytes = 2 ∧ r.access ≠ .readOnly ∧ keptBits r = fmask 40 0 16 := by decide

theorem threshold_hostField {addr : RegAddr} (h1 : 0x0C ≤ addr.toNat) (h2 : addr.toNat ≤ 0x11) :
    ∃ r, HostField addr r 0 16 := by
  obtain ⟨r, hr⟩ := Option.isSome_iff_exists.mp ((rmapLookup_isSome_iff addr).mpr (.inl h2))
  obtain ⟨hmem, rfl⟩ := rmapLookup_mem hr
  obtain ⟨hsize, haccess, hkept⟩ := regTable_thresholds r hmem h1 h2
  exact ⟨r, hr, hsize, haccess, hkept⟩

/-- The setting registers of `Obligations.SettingsReadBackAsWritten`, each with its field. -/
theorem setting_hostField {addr : RegAddr} {k : Nat}
    (h : (addr = 0x01#8 ∧ k = 16) ∨ (addr = 0x02#8 ∧ k = 15) ∨ (addr = 0x03#8 ∧ k = 14) ∨
      (0x0C ≤ addr.toNat ∧ addr.toNat ≤ 0x11 ∧ k = 16)) :
    addr ≠ 0x00#8 ∧ ∃ r, HostField addr r 0 k := by
  rcases h with ⟨rfl, rfl⟩ | ⟨rfl, rfl⟩ | ⟨rfl, rfl⟩ | ⟨h1, h2, rfl⟩
  · exact ⟨by decide, _, rfl, rfl, by decide, by decide⟩
  · exact ⟨by decide, _, rfl, rfl, by decide, by decide⟩
  · exact ⟨by decide, _, rfl, rfl, by decide, by decide⟩
  · exact ⟨by rintro rfl; simp at h1, threshold_hostField h1 h2⟩

/-- Settles O58: a write and a read each make the field known, and a read finds what is known. -/
theorem settingsReadBackAsWritten : Obligations.SettingsReadBackAsWritten := by
  intro addr k w s haddr
  obtain ⟨hne, r, h⟩ := setting_hostField haddr
  refine ⟨⟨_, _, h.write_eq (isResetPulse_of_ne hne w) s, h.read_eq _, ?_, h.wi_lt _, afterRead_xerr _ r,
      afterRead_context _ r, fun key hkey => ?_⟩,
    ⟨_, _, h.read_eq s, h.read_eq _, ?_, fun key hkey => ?_⟩⟩
  · simpa using h.after_write s w
  · rw [afterRead_get_outside _ r (h.outside hkey), holdWord_get_outside s r w (h.outside hkey)]
  · simpa using h.after_read s
  · rw [afterRead_get_outside _ r (h.outside hkey), afterRead_get_outside s r (h.outside hkey)]

/-- Settles O59, as O58; bits 15:12 are all that is above bit 11 of a 16-bit word. -/
theorem hostBitsReadBackAsWritten : Obligations.HostBitsReadBackAsWritten := by
  intro w s
  have hconfig := config_hostField
  have hdiag := diagFlags_hostField
  have htop (s : State) : (s.afterRead recDiagFlags).inp.wi.toNat / 2 ^ 12 % 2 ^ 4 =
      (s.afterRead recDiagFlags).inp.wi.toNat / 2 ^ 12 := by
    have := hdiag.wi_lt s
    omega
  refine ⟨fun hw =>
      ⟨_, _, hconfig.write_eq (isResetPulse_of_bit hw _) s, hconfig.read_eq _, hconfig.after_write s w⟩,
    ⟨_, _, hdiag.write_eq (isResetPulse_of_ne (by decide) w) s, hdiag.read_eq _, ?_⟩,
    ⟨_, _, hconfig.read_eq s, hconfig.read_eq _, hconfig.after_read s⟩,
    ⟨_, _, hdiag.read_eq s, hdiag.read_eq _, ?_⟩⟩
  · rw [← htop]
    exact hdiag.after_write s w
  · rw [← htop, ← htop s]
    exact hdiag.after_read s

/-! ### A failed read and the command that consumes it (20_memory.md R76, 60_exceptions.md R222) -/

theorem withDescriptor_legal {rw : BitVec 2} {width off : BitVec 6} (h : LegalDesc rw width.toNat off.toNat) (s : State)
    {r : Result} {k : RegWidth → Result} (hk : ∀ W, k W = r) : withDescriptor rw width off s k = r := by
  obtain ⟨W, hW, -⟩ := descWidth_legal h
  simp [withDescriptor, hW, hk]

theorem withMapField_mapped {addr : RegAddr} {idx : BitVec 4} (h : mapField addr idx ≠ none) (s : State)
    {r : Result} {k : RegWidth → FieldDesc → Result} (hk : ∀ W d, k W d = r) : withMapField addr idx s k = r := by
  obtain ⟨⟨W, d⟩, hf⟩ := Option.ne_none_iff_exists'.mp h
  simp [withMapField, hf, hk]

/-- A command with good operands consumes `wi` before it looks at anything else. -/
theorem exec_consumesWi_failed {i : Instr} {s : State} (hx : s.inp.xerr = 1#1) (hi : consumesWi i = true)
    (ho : operandFault i = none) : exec i s = raise (.transport s.inp.xinfo) s := by
  unfold exec
  cases i with
  | unpack rw sgn width off =>
    exact withDescriptor_legal (by simpa [operandFault, LegalDesc] using ho) s fun _ => consumeWi_failed hx _
  | pack rw sgn width off =>
    exact withDescriptor_legal (by simpa [operandFault, LegalDesc] using ho) s fun _ => consumeWi_failed hx _
  | unpackr addr idx =>
    exact withMapField_mapped (by simpa [operandFault] using ho) s fun _ _ => consumeWi_failed hx _
  | packr addr idx =>
    exact withMapField_mapped (by simpa [operandFault] using ho) s fun _ _ => consumeWi_failed hx _
  | decthr addr =>
    have haddr : 0x0C ≤ addr.toNat ∧ addr.toNat ≤ 0x11 := by simpa [operandFault] using ho
    exact (withThreshold_inside haddr.1 haddr.2 s _).trans (consumeWi_failed hx _)
  | deccfg | decadc | decvsh | decvbus | dectemp | deccur | decpwr | deceng | decchg | decflg | maskalrt =>
    exact consumeWi_failed hx _
  | nop | rmap | enccfg | encadc | muxsel | ctsel | avgsel | rngsel | setcal | clrcal | setctl | enccal | enctco
  | rdctx | encalrt | encthr => cases hi

/-- Settles O60: the failed read leaves its code on the ports, where the command finds it. -/
theorem failedReadReachesTheCommand : Obligations.FailedReadReachesTheCommand := by
  intro addr n code s t i hread hi ho
  rcases busRead_cases hread with ⟨code', hcode, rfl⟩ | ⟨w, m, hcode, -⟩
  · cases hcode
    exact exec_consumesWi_failed rfl hi ho
  · cases hcode

end Sys2Proof.Machine
end

section
/-! PROOFS. The statements of 30_encoding.md: the decoder and the encoder are inverse to each other, and the `op` values
that select no command. -/

namespace Sys2Proof

/-! ### What decoding can answer (30_encoding.md R101) -/

/-- No row of the opcode map has the word's `op` (R97), or the row that has it accepts the word or finds it ill
formed (R98). -/
theorem decode_cases (c : CmdWord) :
    ((∀ r ∈ opRows, r.op ≠ opOf c) ∧ decode c = .illegal .reservedOp (opOf c)) ∨
      ∃ r ∈ opRows, r.op = opOf c ∧
        ((c &&& r.mask = r.pat ∧ (r.build c).wellFormed = true ∧ decode c = .instr (r.build c)) ∨
          decode c = .illegal .mustBeZero (opOf c) ∨ decode c = .illegal .badSelector (opOf c)) := by
  cases hf : opRows.find? (fun r => r.op == opOf c) with
  | none => exact .inl ⟨by simpa using hf, by simp [decode, hf]⟩
  | some r =>
    have hop : r.op = opOf c := by simpa using List.find?_some hf
    refine .inr ⟨r, List.mem_of_find?_eq_some hf, hop, ?_⟩
    by_cases hm : c &&& r.mask = r.pat
    · by_cases hw : (r.build c).wellFormed = true
      · exact .inl ⟨hm, hw, decode_of_row hf hm hw⟩
      · exact .inr (.inr (by simp [decode, hf, hm, hw]))
    · exact .inr (.inl (by simp [decode, hf, hm]))

/-- A word the decoder accepts matches the row of the opcode map that reads it. -/
theorem decode_eq_instr {c : CmdWord} {i : Instr} (h : decode c = .instr i) :
    ∃ r ∈ opRows, c &&& r.mask = r.pat ∧ i = r.build c ∧ i.wellFormed = true := by
  rcases decode_cases c with ⟨-, hd⟩ | ⟨r, hr, -, ⟨hm, hw, hd⟩ | hd | hd⟩ <;> rw [hd] at h <;> cases h
  exact ⟨r, hr, hm, rfl, hw⟩

/-- A word is rejected as a reserved opcode exactly when no row of the opcode map has its `op`. -/
theorem decode_eq_reservedOp_iff {c : CmdWord} {op : BitVec 6} :
    decode c = .illegal .reservedOp op ↔ op = opOf c ∧ ∀ r ∈ opRows, r.op ≠ opOf c := by
  rcases decode_cases c with ⟨hno, hd⟩ | ⟨r, hr, hop, hd⟩
  · simpa [hd, eq_comm] using fun _ => hno
  · have hrow : ¬ ∀ r ∈ opRows, r.op ≠ opOf c := fun hno => hno r hr hop
    rcases hd with ⟨-, -, hd⟩ | hd | hd <;> simp [hd, hrow]

/-! ### The word of the fields of a word, format by format (30_encoding.md R91 to R94)

Each is the `op` together with the word's bits at the operands of the format. -/

theorem encF_fields (op : BitVec 6) (c : CmdWord) :
    encF op (rwOf c) (sgnOf c) (widthOf c) (offOf c) = encN op ||| (c &&& 0x0300BF3F#32) := by
  apply word_ext; intro i hi; unfold encF encN rwOf sgnOf widthOf offOf; interval_cases i <;> simp

theorem encA_fields (op : BitVec 6) (c : CmdWord) :
    encA op (addrOf c) (idxOf c) = encN op ||| (c &&& 0x00FF000F#32) := by
  apply word_ext; intro i hi; unfold encA encN addrOf idxOf; interval_cases i <;> simp

theorem encA_addrOf (op : BitVec 6) (c : CmdWord) :
    encA op (addrOf c) 0#4 = encN op ||| (c &&& 0x00FF0000#32) := by
  apply word_ext; intro i hi; unfold encA encN addrOf; interval_cases i <;> simp

theorem encI_immOf (op : BitVec 6) (k : Nat) (c : CmdWord) :
    encI op (immOf k c) = encN op ||| (c &&& (BitVec.allOnes k).setWidth 32) := by
  ext i hi; simp [encI, encN, immOf, hi, Bool.and_comm]

/-! ### The encoder reads an accepted word back (30_encoding.md R96, R105) -/

/-- The word of the command a row builds from `c`: the row's `op`, and the bits of `c` that the row's mask leaves free.
Row by row, by the lemma of its format. -/
theorem encode_build {r : OpRow} (hr : r ∈ opRows) (c : CmdWord) :
    encode (r.build c) = encN r.op ||| (c &&& ~~~r.mask) := by
  fin_cases hr <;> simp [encode, encF_fields, encA_fields, encA_addrOf, encI_immOf]

/-- Only the word itself has the row's pattern under its mask and its own bits elsewhere. -/
theorem encode_build_of_match {r : OpRow} (hr : r ∈ opRows) {c : CmdWord} (h : c &&& r.mask = r.pat) :
    encode (r.build c) = c := by
  obtain ⟨-, hpat, -⟩ := opRows_disjoint.2 r hr
  calc encode (r.build c) = encN r.op ||| (c &&& ~~~r.mask) := encode_build hr c
    _ = (c &&& r.mask) ||| (c &&& ~~~r.mask) := by rw [h, hpat]
    _ = c := by rw [← BitVec.and_or_distrib_left, BitVec.or_not_self, BitVec.and_allOnes]

/-- Settles O2: an accepted word matches its row, and the row's command encodes to no other word. -/
theorem acceptedWordIsItsCommandsWord : Obligations.AcceptedWordIsItsCommandsWord := by
  intro c i h
  obtain ⟨r, hr, hm, rfl, hw⟩ := decode_eq_instr h
  exact ⟨hw, encode_build_of_match hr hm⟩

/-! ### The decoder reads a command's word back (30_encoding.md R101, R105) -/

namespace Laws

/-- The round trip of every command, constructor by constructor. -/
theorem roundTrip : ∀ i : Instr, RoundTrip.Statement i
  | .nop => RoundTrip.nop
  | .unpack rw sgn width off => RoundTrip.unpack rw sgn width off
  | .pack rw sgn width off => RoundTrip.pack rw sgn width off
  | .rmap addr idx => RoundTrip.rmap addr idx
  | .unpackr addr idx => RoundTrip.unpackr addr idx
  | .packr addr idx => RoundTrip.packr addr idx
  | .enccfg => RoundTrip.enccfg
  | .encadc => RoundTrip.encadc
  | .deccfg => RoundTrip.deccfg
  | .decadc => RoundTrip.decadc
  | .muxsel m => RoundTrip.muxsel m
  | .ctsel c => RoundTrip.ctsel c
  | .avgsel a => RoundTrip.avgsel a
  | .rngsel r => RoundTrip.rngsel r
  | .setcal => RoundTrip.setcal
  | .clrcal => RoundTrip.clrcal
  | .setctl b => RoundTrip.setctl b
  | .enccal => RoundTrip.enccal
  | .enctco => RoundTrip.enctco
  | .rdctx sel => RoundTrip.rdctx sel
  | .decvsh r => RoundTrip.decvsh r
  | .decvbus => RoundTrip.decvbus
  | .dectemp => RoundTrip.dectemp
  | .deccur => RoundTrip.deccur
  | .decpwr => RoundTrip.decpwr
  | .deceng => RoundTrip.deceng
  | .decchg => RoundTrip.decchg
  | .decflg => RoundTrip.decflg
  | .encalrt b => RoundTrip.encalrt b
  | .maskalrt => RoundTrip.maskalrt
  | .encthr addr => RoundTrip.encthr addr
  | .decthr addr => RoundTrip.decthr addr

end Laws

/-- Settles O1, by the round trip of each command. -/
theorem decodeReadsBackEveryCommand : Obligations.DecodeReadsBackEveryCommand := Laws.roundTrip

/-! ### The reserved `op` values (30_encoding.md R97) -/

/-- The `op` values that the opcode map leaves out. -/
theorem op_not_mem_opRows_iff :
    ∀ op : BitVec 6, (∀ r ∈ opRows, r.op ≠ op) ↔
      op.toNat ∈ [0x06, 0x07, 0x16, 0x17, 0x1F] ∨ 0x25 ≤ op.toNat := by
  decide

theorem opOf_toNat (c : CmdWord) : (opOf c).toNat = c.toNat / 2 ^ 26 := by
  have := c.isLt
  simp only [opOf, BitVec.extractLsb'_toNat, Nat.shiftRight_eq_div_pow]
  omega

/-- The fault information of an illegal word is its `op`, as a number (R101). -/
theorem opOf_info (c : CmdWord) : (opOf c).setWidth 8 = BitVec.ofNat 8 (c.toNat / 2 ^ 26) := by
  rw [← opOf_toNat, BitVec.ofNat_toNat]

/-- R97: which words are rejected as a reserved opcode, by their six top bits. -/
theorem exists_decode_eq_reservedOp_iff (c : CmdWord) :
    (∃ op, decode c = .illegal .reservedOp op) ↔
      c.toNat / 2 ^ 26 ∈ [0x06, 0x07, 0x16, 0x17, 0x1F] ∨ 0x25 ≤ c.toNat / 2 ^ 26 := by
  simp only [decode_eq_reservedOp_iff, exists_eq_left, op_not_mem_opRows_iff, opOf_toNat]

/-- Settles O4: the step of a word rejected as a reserved opcode raises IllegalCommand with the word's `op`. -/
theorem reservedOpcodesSelectNoCommand : Obligations.ReservedOpcodesSelectNoCommand := by
  refine ⟨exists_decode_eq_reservedOp_iff, fun s h0 hres => ?_⟩
  obtain ⟨op, hd⟩ := (exists_decode_eq_reservedOp_iff s.inp.cmd).mpr hres
  obtain ⟨rfl, -⟩ := decode_eq_reservedOp_iff.mp hd
  rw [Machine.step_illegal h0 hd, ← opOf_info]
  rfl

/-! ### Words written out from the encoding tables (30_encoding.md R96, R98, R103, R104) -/

/-- Settles O3: each word is decoded as it stands. -/
theorem writtenWordsDecode : Obligations.WrittenWordsDecode := by
  unfold Obligations.WrittenWordsDecode
  decide

end Sys2Proof
end

section
/-! PROOFS. The statements of 40_field_codec.md: what the field codec and the Register Map lookup answer, and that
packing and unpacking are inverse to each other. -/

namespace Sys2Proof.Machine

/-- Settles O21: NOP completes with no port of its own, and its word is its `op` alone. -/
theorem nopDrivesOnlyFlt : Obligations.NopDrivesOnlyFlt :=
  fun s => ⟨rfl, complete_eq {} s⟩

/-! ### Where the descriptor comes from (40_field_codec.md R121, R124, R125, R128, R129) -/

theorem withDescriptor_of_descWidth {rw : BitVec 2} {width off : BitVec 6} {W : RegWidth}
    (h : descWidth rw width off = some W) (s : State) (k : RegWidth → Result) :
    withDescriptor rw width off s k = k W := by
  simp [withDescriptor, h]

theorem withDescriptor_illegal {rw : BitVec 2} {width off : BitVec 6} (h : ¬LegalDesc rw width.toNat off.toNat)
    (s : State) (k : RegWidth → Result) : withDescriptor rw width off s k = raise .badDescriptor s := by
  simp [withDescriptor, descWidth_illegal h]

theorem withMapField_of_mapField {addr : RegAddr} {idx : BitVec 4} {W : RegWidth} {d : FieldDesc}
    (h : mapField addr idx = some (W, d)) (s : State) (k : RegWidth → FieldDesc → Result) :
    withMapField addr idx s k = k W d := by
  simp [withMapField, h]

theorem withMapField_unmapped {addr : RegAddr} {idx : BitVec 4} (h : mapField addr idx = none) (s : State)
    (k : RegWidth → FieldDesc → Result) : withMapField addr idx s k = raise (.badAddress addr) s := by
  simp [withMapField, h]

theorem operandFault_unpackr {addr : RegAddr} {idx : BitVec 4} {W : RegWidth} {d : FieldDesc}
    (h : mapField addr idx = some (W, d)) : operandFault (.unpackr addr idx) = none := by
  simp [operandFault, h]

theorem operandFault_packr {addr : RegAddr} {idx : BitVec 4} {W : RegWidth} {d : FieldDesc}
    (h : mapField addr idx = some (W, d)) : operandFault (.packr addr idx) = none := by
  simp [operandFault, h]

/-! ### What a good read is unpacked to and packed into (40_field_codec.md R122 to R125) -/

theorem unpackFrom_good {W : RegWidth} {width off : Nat} {s : State} (h1 : 1 ≤ width) (h2 : width ≤ 40)
    (hx : s.inp.xerr = 0#1) (sgn : Bit) :
    ∃ v : Value, unpackFrom W sgn width off s = .next { s with out := { vo := some v, flt := some 0#4 } } ∧
      v.toInt = valueOf sgn width (fieldNat W.bits off width s.inp.wi) :=
  ⟨_, consumeWi_good hx _, unpackValue_toInt W sgn width off s.inp.wi h1 h2⟩

theorem packInto_outOfRange {W : RegWidth} {sgn : Bit} {width off : Nat} {s : State} (hx : s.inp.xerr = 0#1)
    (hr : ¬InRange sgn width s.inp.vi) (hs : s.strict = 1#1) :
    packInto W sgn width off s = raise (.codecRange width) s :=
  (consumeWi_good hx _).trans (checkRange_rejects hr hs _)

theorem packInto_good {W : RegWidth} {sgn : Bit} {width off : Nat} {s : State} (h2 : width ≤ 40)
    (h3 : off + width ≤ W.bits) (hx : s.inp.xerr = 0#1) (hr : InRange sgn width s.inp.vi ∨ s.strict = 0#1) :
    ∃ w : RegWord, packInto W sgn width off s = .next { s with out := { wo := some w, flt := some 0#4 } } ∧
      Packed W.bits off width s.inp.wi s.inp.vi w :=
  ⟨_, (consumeWi_good hx _).trans (checkRange_accepts hr _), packWord_packed W sgn width off s.inp.wi s.inp.vi h2 h3⟩

section
variable {rw : BitVec 2} {width off : BitVec 6} (h : LegalDesc rw width.toNat off.toNat)
include h

theorem exec_unpack_good {s : State} (hx : s.inp.xerr = 0#1) (sgn : Bit) :
    ∃ v : Value, exec (.unpack rw sgn width off) s = .next { s with out := { vo := some v, flt := some 0#4 } } ∧
      v.toInt = valueOf sgn width.toNat (fieldNat (regBits rw) off.toNat width.toNat s.inp.wi) := by
  obtain ⟨W, hW, hbits⟩ := descWidth_legal h
  obtain ⟨-, h1, h2, -⟩ := h
  obtain ⟨v, hv, hval⟩ := unpackFrom_good (W := W) h1 h2 hx sgn
  exact ⟨v, (withDescriptor_of_descWidth hW s _).trans hv, hbits ▸ hval⟩

theorem exec_pack_outOfRange {s : State} {sgn : Bit} (hx : s.inp.xerr = 0#1) (hr : ¬InRange sgn width.toNat s.inp.vi)
    (hs : s.strict = 1#1) : exec (.pack rw sgn width off) s = raise (.codecRange width.toNat) s := by
  obtain ⟨W, hW, -⟩ := descWidth_legal h
  exact (withDescriptor_of_descWidth hW s _).trans (packInto_outOfRange hx hr hs)

theorem exec_pack_good {s : State} {sgn : Bit} (hx : s.inp.xerr = 0#1)
    (hr : InRange sgn width.toNat s.inp.vi ∨ s.strict = 0#1) :
    ∃ w : RegWord, exec (.pack rw sgn width off) s = .next { s with out := { wo := some w, flt := some 0#4 } } ∧
      Packed (regBits rw) off.toNat width.toNat s.inp.wi s.inp.vi w := by
  obtain ⟨W, hW, hbits⟩ := descWidth_legal h
  obtain ⟨-, -, h2, h3⟩ := h
  obtain ⟨w, hw, hpacked⟩ := packInto_good h2 (hbits ▸ h3) hx hr
  exact ⟨w, (withDescriptor_of_descWidth hW s _).trans hw, hbits ▸ hpacked⟩

end

/-- Settles O22: the descriptor, then the qualifier of the read, then the value of the field. -/
theorem unpackDeliversTheField : Obligations.UnpackDeliversTheField :=
  fun rw sgn width off s =>
    ⟨encF_toNat 0x01#6 rw sgn width off,
      fun h => withDescriptor_illegal h s _,
      fun h hx => exec_consumesWi_failed hx rfl (if_pos h),
      fun h hx => exec_unpack_good h hx sgn⟩

/-- Settles O23: the descriptor, then the qualifier of the read, then the range, then the packed word. -/
theorem packReplacesOnlyTheField : Obligations.PackReplacesOnlyTheField :=
  fun rw sgn width off s =>
    ⟨encF_toNat 0x02#6 rw sgn width off,
      fun h => withDescriptor_illegal h s _,
      fun h hx => exec_consumesWi_failed hx rfl (if_pos h),
      fun h hx hr hs => exec_pack_outOfRange h hx hr hs,
      fun h hx hr => exec_pack_good h hx hr⟩

/-! ### The commands that read the Register Map (40_field_codec.md R127 to R129) -/

/-- Settles O25: the map's descriptors are legal, so it is UNPACK's case split without BadDescriptor. -/
theorem unpackrDeliversTheMappedField : Obligations.UnpackrDeliversTheMappedField := by
  refine fun addr idx s =>
    ⟨encA_toNat 0x04#6 addr idx,
      fun h => withMapField_unmapped h s _,
      fun W d h hx => exec_consumesWi_failed hx rfl (operandFault_unpackr h),
      fun W d h hx => ?_⟩
  obtain ⟨h1, h2, -⟩ := mapField_legal h
  obtain ⟨v, hv, hval⟩ := unpackFrom_good h1 h2 hx d.sgn
  exact ⟨v, (withMapField_of_mapField h s _).trans hv, hval⟩

/-- Settles O26: as O25, with PACK's range test. -/
theorem packrReplacesOnlyTheMappedField : Obligations.PackrReplacesOnlyTheMappedField := by
  refine fun addr idx s =>
    ⟨encA_toNat 0x05#6 addr idx,
      fun h => withMapField_unmapped h s _,
      fun W d h hx => exec_consumesWi_failed hx rfl (operandFault_packr h),
      fun W d h hx hr hs => (withMapField_of_mapField h s _).trans (packInto_outOfRange hx hr hs),
      fun W d h hx hr => ?_⟩
  obtain ⟨-, h2, h3⟩ := mapField_legal h
  obtain ⟨w, hw, hpacked⟩ := packInto_good h2 h3 hx hr
  exact ⟨w, (withMapField_of_mapField h s _).trans hw, hpacked⟩

theorem rmapOutputs_unmapped {addr : RegAddr} (h : rmapLookup addr = none) (idx : BitVec 4) :
    rmapOutputs addr idx = { valid := some 0#1 } := by
  simp [rmapOutputs, h]

/-- The `nfields` port holds every field count of the map (10_state.md R30). -/
theorem nfields_port_toNat {addr : RegAddr} {r : RegRecord} (h : rmapLookup addr = some r) :
    (BitVec.ofNat 4 r.nfields).toNat = r.fields.length := by
  obtain ⟨-, hmax⟩ := regTable_nfields r (rmapLookup_mem h).1
  exact Nat.mod_eq_of_lt (Nat.lt_succ_of_le hmax)

section
variable {addr : RegAddr} {idx : BitVec 4} {r : RegRecord} (h : rmapLookup addr = some r)
include h

theorem rmapOutputs_noField (hidx : r.fields.length ≤ idx.toNat) :
    rmapOutputs addr idx =
      { valid := some 0#1, rw := some r.rw.code, nfields := some (BitVec.ofNat 4 r.nfields) } := by
  simp [rmapOutputs, h, hidx]

theorem rmapOutputs_field {d : FieldDesc} (hd : r.fields[idx.toNat]? = some d) :
    rmapOutputs addr idx =
      { valid := some 1#1, rw := some r.rw.code, nfields := some (BitVec.ofNat 4 r.nfields), off := some d.off,
        width := some d.width, sgn := some d.sgn } := by
  simp [rmapOutputs, h, hd]

end

/-- RMAP completes whatever it finds. -/
theorem exec_rmap {addr : RegAddr} {idx : BitVec 4} {m : MapOut} (h : rmapOutputs addr idx = m) (s : State) :
    exec (.rmap addr idx) s = .next { s with out := { dout := m, flt := some 0#4 } } := by
  subst h; rfl

/-- Settles O24, by the three answers of `rmapOutputs`. -/
theorem rmapAnswersFromTheMap : Obligations.RmapAnswersFromTheMap :=
  fun addr idx s =>
    ⟨encA_toNat 0x03#6 addr idx,
      fun h => exec_rmap (rmapOutputs_unmapped h idx) s,
      fun _ h hidx => ⟨_, nfields_port_toNat h, exec_rmap (rmapOutputs_noField h hidx) s⟩,
      fun _ _ h hd => ⟨_, nfields_port_toNat h, exec_rmap (rmapOutputs_field h hd) s⟩⟩

/-! ### The field of a packed word (40_field_codec.md R131)

UNPACK and PACK are stated in numbers and in bits, so the two meet in the bits of a field's number. -/

theorem fieldNat_testBit (W off width : Nat) (wi : RegWord) (i : Nat) :
    (fieldNat W off width wi).testBit i = (decide (i < width) && (decide (off + i < W) && wi.getLsbD (off + i))) := by
  rw [fieldNat, Nat.testBit_mod_two_pow, Nat.testBit_div_two_pow, Nat.testBit_mod_two_pow, BitVec.testBit_toNat,
    Nat.add_comm i off]

theorem fieldNat_lt (W off width : Nat) (wi : RegWord) : fieldNat W off width wi < 2 ^ width :=
  Nat.mod_lt _ (by positivity)

theorem regBits_le (rw : BitVec 2) : regBits rw ≤ 40 := by
  unfold regBits
  split_ifs <;> decide

section
variable {W off width : Nat} {wi w : RegWord} {vi : Value} (h : Packed W off width wi vi w)
include h

/-- The packed field holds the low bits of the value. -/
theorem Packed.fieldNat_eq (hW : W ≤ 40) (hfit : off + width ≤ W) : fieldNat W off width w = vi.toNat % 2 ^ width := by
  apply Nat.eq_of_testBit_eq
  intro i
  rw [fieldNat_testBit, Nat.testBit_mod_two_pow, BitVec.testBit_toNat]
  by_cases hi : i < width
  · have hbit : w.getLsbD (off + i) = vi.getLsbD i := by
      rw [h (off + i) (by omega), if_pos (by omega), Nat.add_sub_cancel_left]
    simp [hi, hbit, show off + i < W by omega]
  · simp [hi]

/-- A field that does not overlap the packed one is what it was. -/
theorem Packed.fieldNat_apart {off' width' : Nat} (hW : W ≤ 40) (hfit' : off' + width' ≤ W)
    (hapart : off + width ≤ off' ∨ off' + width' ≤ off) :
    fieldNat W off' width' w = fieldNat W off' width' wi := by
  apply Nat.eq_of_testBit_eq
  intro i
  rw [fieldNat_testBit, fieldNat_testBit]
  by_cases hi : i < width'
  · have hbit : w.getLsbD (off' + i) = wi.getLsbD (off' + i) := by
      rw [h (off' + i) (by omega), if_neg (by omega)]
      simp [show off' + i < W by omega]
    rw [hbit]
  · simp [hi]

/-- Packing the bits that stood in the field gives the register's part of the word again. -/
theorem Packed.toNat_of_own_field (hvi : vi.toNat % 2 ^ width = fieldNat W off width wi) :
    w.toNat = wi.toNat % 2 ^ W := by
  apply Nat.eq_of_testBit_eq
  intro i
  rw [Nat.testBit_mod_two_pow, BitVec.testBit_toNat, BitVec.testBit_toNat]
  by_cases h40 : i < 40
  · rw [h i h40]
    split
    next hin =>
      have hbit := congrArg (Nat.testBit · (i - off)) hvi
      simp only [fieldNat_testBit, Nat.testBit_mod_two_pow, BitVec.testBit_toNat] at hbit
      simpa [show i - off < width by omega, Nat.add_sub_cancel' hin.1] using hbit
    next => rfl
  · simp [BitVec.getLsbD_of_ge _ _ (not_lt.mp h40)]

end

/-! ### The value of a field and its low bits (40_field_codec.md R122, R123) -/

theorem setWidth_toInt {width : Nat} (h : width ≤ 80) (vi : Value) :
    (vi.setWidth width).toInt = vi.toInt.bmod (2 ^ width) := by
  rw [BitVec.toInt_setWidth, BitVec.toInt_eq_toNat_bmod, Int.bmod_bmod_of_dvd (pow_dvd_pow 2 h)]

theorem two_mul_two_pow_pred {width : Nat} (h : 1 ≤ width) : 2 * (2 : Int) ^ (width - 1) = 2 ^ width := by
  rw [← pow_succ', Nat.sub_add_cancel h]

/-- Reading a field as signed changes its number by a multiple of its modulus only. -/
theorem valueOf_bmod (sgn : Bit) (width n : Nat) :
    (valueOf sgn width n).bmod (2 ^ width) = (n : Int).bmod (2 ^ width) := by
  unfold valueOf
  split
  · exact_mod_cast Int.sub_bmod_right n (2 ^ width)
  · rfl

/-- A value in range is the one its low bits stand for. -/
theorem valueOf_low_bits {sgn : Bit} {width : Nat} {vi : Value} (h1 : 1 ≤ width) (h2 : width ≤ 40)
    (h : InRange sgn width vi) : valueOf sgn width (vi.toNat % 2 ^ width) = vi.toInt := by
  have htwo := two_mul_two_pow_pred h1
  obtain ⟨hsigned, hunsigned⟩ := h
  rw [← BitVec.toNat_setWidth, ← valueOf_eq_fieldInt h1, fieldInt]
  rcases bit_cases sgn with rfl | rfl
  · have hlt := hunsigned rfl
    have h40 : (2 : Nat) ^ width ≤ 2 ^ 40 := Nat.pow_le_pow_right (by decide) h2
    rw [if_neg (by decide), BitVec.toNat_setWidth, Nat.mod_eq_of_lt hlt, BitVec.toInt_eq_toNat_of_lt (by omega)]
  · obtain ⟨hlo, hhi⟩ := hsigned rfl
    rw [if_pos rfl, setWidth_toInt (by omega)]
    exact Int.bmod_eq_of_le (by push_cast; omega) (by push_cast; omega)

section
variable {sgn : Bit} {width n : Nat} {v : Value} (hn : n < 2 ^ width) (hv : v.toInt = valueOf sgn width n)
include hn hv

/-- What a field's bits stand for is representable in the field. -/
theorem inRange_of_toInt_eq_valueOf (h1 : 1 ≤ width) : InRange sgn width v := by
  have htwo := two_mul_two_pow_pred h1
  have hcast : (n : Int) < 2 ^ width := by exact_mod_cast hn
  rcases bit_cases sgn with rfl | rfl
  · refine ⟨fun h => absurd h (by decide), fun _ => ?_⟩
    have hvn : v.toInt = n := by simpa [valueOf] using hv
    have hcond := BitVec.toInt_eq_toNat_cond v
    split at hcond <;> omega
  · refine ⟨fun _ => ?_, fun h => absurd h (by decide)⟩
    simp only [valueOf, true_and] at hv
    zify at hv
    split at hv <;> omega

/-- The low bits of what a field's bits stand for are the field's bits. -/
theorem toNat_mod_of_toInt_eq_valueOf (h2 : width ≤ 80) : v.toNat % 2 ^ width = n := by
  have hbits : v.setWidth width = BitVec.ofNat width n := by
    apply BitVec.eq_of_toInt_eq
    rw [setWidth_toInt h2, hv, valueOf_bmod, BitVec.toInt_ofNat']
  rw [← BitVec.toNat_setWidth, hbits, BitVec.toNat_ofNat, Nat.mod_eq_of_lt hn]

end

/-! ### Packing and unpacking one after the other (40_field_codec.md R131) -/

/-- Settles O29: the packed field holds the value's low bits, which stand for a value in range; and the field's bits are
the low bits of what they stand for. -/
theorem packAndUnpackAreInverse : Obligations.PackAndUnpackAreInverse := by
  intro rw sgn width off s h hx
  have ⟨_, h1, h2, hfit⟩ := h
  refine ⟨fun hr => ?_, ?_⟩
  · obtain ⟨w, hpack, hpacked⟩ := exec_pack_good h hx (.inl hr)
    obtain ⟨v, hunpack, hv⟩ := exec_unpack_good h
      (s := (s.drive { wo := some w, flt := some 0#4 }).withTransport w 0#1 0#8) rfl sgn
    have hvi : v = s.inp.vi := BitVec.eq_of_toInt_eq <| calc
      v.toInt = valueOf sgn width.toNat (fieldNat (regBits rw) off.toNat width.toNat w) := hv
      _ = valueOf sgn width.toNat (s.inp.vi.toNat % 2 ^ width.toNat) := by
        rw [hpacked.fieldNat_eq (regBits_le rw) hfit]
      _ = s.inp.vi.toInt := valueOf_low_bits h1 h2 hr
    exact ⟨_, w, _, hpack, rfl, hunpack, congrArg some hvi⟩
  · obtain ⟨v, hunpack, hv⟩ := exec_unpack_good h hx sgn
    have hn := fieldNat_lt (regBits rw) off.toNat width.toNat s.inp.wi
    obtain ⟨w, hpack, hpacked⟩ := exec_pack_good h
      (s := (s.drive { vo := some v, flt := some 0#4 }).present { s.inp with vi := v }) hx
      (.inl (inRange_of_toInt_eq_valueOf hn hv h1))
    exact ⟨_, v, _, w, hunpack, rfl, hpack, rfl,
      hpacked.toNat_of_own_field (toNat_mod_of_toInt_eq_valueOf hn hv (by omega))⟩

/-- Settles O30: both words hold the same bits in the second field, so it unpacks to the same value. -/
theorem packLeavesDisjointFieldsAlone : Obligations.PackLeavesDisjointFieldsAlone := by
  intro rw sgn sgn' width off width' off' s h h' hx hr hapart
  have ⟨_, _, _, hfit'⟩ := h'
  obtain ⟨w, hpack, hpacked⟩ := exec_pack_good h hx hr
  obtain ⟨v, hunpack, hv⟩ := exec_unpack_good h' hx sgn'
  obtain ⟨v', hunpack', hv'⟩ := exec_unpack_good h'
    (s := (s.drive { wo := some w, flt := some 0#4 }).withTransport w 0#1 0#8) rfl sgn'
  have hsame : v' = v := BitVec.eq_of_toInt_eq <| calc
    v'.toInt = valueOf sgn' width'.toNat (fieldNat (regBits rw) off'.toNat width'.toNat w) := hv'
    _ = valueOf sgn' width'.toNat (fieldNat (regBits rw) off'.toNat width'.toNat s.inp.wi) := by
      rw [hpacked.fieldNat_apart (regBits_le rw) hfit' hapart]
    _ = v.toInt := hv.symm
  exact ⟨_, w, _, _, hpack, rfl, hunpack, hunpack', congrArg some hsame⟩

end Sys2Proof.Machine
end

section
/-! PROOFS. The statements of 41_configuration.md: the words of a Configuration, the fields they decode to, and the
tables of the selectors. -/

namespace Sys2Proof.Machine

/-! ### Words and fields as numbers (00_scope.md R9, 10_state.md R29) -/

theorem toNat_append_eq_add {m n : Nat} (x : BitVec m) (y : BitVec n) :
    (x ++ y).toNat = x.toNat * 2 ^ n + y.toNat := by
  rw [BitVec.toNat_append, Nat.shiftLeft_eq, shifted_or _ _ _ y.isLt]

theorem zext40_toNat {W : Nat} (h : W ≤ 40) (w : BitVec W) : (zext40 w).toNat = w.toNat :=
  BitVec.toNat_setWidth_of_le h

theorem bitAt_toNat {W : Nat} (w : BitVec W) (i : Nat) : (bitAt w i).toNat = w.toNat / 2 ^ i % 2 := by
  simp [bitAt, Nat.shiftRight_eq_div_pow]

/-- A field inside the register is not cut by the register's width. -/
theorem fieldNat_of_fits {W off width : Nat} (h : off + width ≤ W) (wi : RegWord) :
    fieldNat W off width wi = wi.toNat / 2 ^ off % 2 ^ width := by
  obtain ⟨k, rfl⟩ := Nat.exists_eq_add_of_le h
  rw [fieldNat, Nat.add_assoc, Nat.pow_add, Nat.mod_mul_right_div_self,
    Nat.mod_mod_of_dvd _ (pow_dvd_pow 2 (Nat.le_add_right width k))]

theorem fget_regPart_toNat {W off width : Nat} (h : off + width ≤ W) (wi : RegWord) :
    (fget (regPart W wi) off width).toNat = wi.toNat / 2 ^ off % 2 ^ width :=
  (fget_toNat W off width wi).trans (fieldNat_of_fits h wi)

/-! ### The words of a Configuration (41_configuration.md R141, R142) -/

theorem configWord_toNat (c : ConfigIn) :
    (configWord c).toNat = c.rst.toNat * 2 ^ 15 + c.rstacc.toNat * 2 ^ 14 + c.convdly.toNat * 2 ^ 6 +
      c.tempcomp.toNat * 2 ^ 5 + c.adcrange.toNat * 2 ^ 4 := by
  simp only [configWord, toNat_append_eq_add, BitVec.toNat_ofNat]
  omega

theorem adcConfigWord_toNat (c : ConfigIn) :
    (adcConfigWord c).toNat = c.mode.toNat * 2 ^ 12 + c.vbusct.toNat * 2 ^ 9 + c.vshct.toNat * 2 ^ 6 +
      c.vtct.toNat * 2 ^ 3 + c.avg.toNat := by
  simp only [adcConfigWord, toNat_append_eq_add]
  omega

/-- Settles O31: ENCCFG completes with the fields of the word side by side. -/
theorem enccfgBuildsTheConfigWord : Obligations.EnccfgBuildsTheConfigWord :=
  fun s => ⟨rfl, _, complete_eq _ s, (zext40_toNat (by decide) _).trans (configWord_toNat s.inp.ci)⟩

/-- Settles O32: as O31, for the other word. -/
theorem encadcBuildsTheAdcConfigWord : Obligations.EncadcBuildsTheAdcConfigWord :=
  fun s => ⟨rfl, _, complete_eq _ s, (zext40_toNat (by decide) _).trans (adcConfigWord_toNat s.inp.ci)⟩

/-! ### The fields of a word (41_configuration.md R144 to R146) -/

theorem exec_deccfg_good {s : State} (hx : s.inp.xerr = 0#1) :
    exec .deccfg s = .next (s.drive { co := configFields (regPart 16 s.inp.wi), flt := some 0#4 }) :=
  consumeWi_good hx fun wi => complete { co := configFields (regPart 16 wi) } s

theorem exec_decadc_good {s : State} (hx : s.inp.xerr = 0#1) :
    exec .decadc s = .next (s.drive { co := adcConfigFields (regPart 16 s.inp.wi), flt := some 0#4 }) :=
  consumeWi_good hx fun wi => complete { co := adcConfigFields (regPart 16 wi) } s

/-- Settles O33: each reported field is a field of the 16-bit register, the pulses are constants. -/
theorem deccfgHidesThePulses : Obligations.DeccfgHidesThePulses :=
  fun s =>
    ⟨rfl,
      fun hx => exec_consumesWi_failed hx rfl rfl,
      fun hx => ⟨_, _, _, exec_deccfg_good hx, fget_regPart_toNat (by decide) s.inp.wi,
        fget_regPart_toNat (by decide) s.inp.wi, fget_regPart_toNat (by decide) s.inp.wi⟩⟩

/-- Settles O34: as O33, for the five fields of the other word. -/
theorem decadcReportsTheFields : Obligations.DecadcReportsTheFields := by
  refine fun s => ⟨rfl, fun hx => exec_consumesWi_failed hx rfl rfl, fun hx => ?_⟩
  have havg := fget_regPart_toNat (W := 16) (off := 0) (width := 3) (by decide) s.inp.wi
  rw [Nat.pow_zero, Nat.div_one] at havg
  exact ⟨_, _, _, _, _, exec_decadc_good hx, fget_regPart_toNat (by decide) s.inp.wi,
    fget_regPart_toNat (by decide) s.inp.wi, fget_regPart_toNat (by decide) s.inp.wi,
    fget_regPart_toNat (by decide) s.inp.wi, havg⟩

/-- DECCFG after ENCCFG (R146): the numbers of the two commands meet in the word between them. -/
theorem deccfg_enccfg (s : State) :
    ∃ t w u, exec .enccfg s = .next t ∧ t.out.wo = some w ∧ exec .deccfg (t.withTransport w 0#1 0#8) = .next u ∧
      u.out.co = { rst := some 0#1, rstacc := some 0#1, convdly := some s.inp.ci.convdly,
                   tempcomp := some s.inp.ci.tempcomp, adcrange := some s.inp.ci.adcrange } := by
  obtain ⟨-, w, henc, hw⟩ := enccfgBuildsTheConfigWord s
  obtain ⟨-, -, hdec⟩ := deccfgHidesThePulses
    ((s.drive { wo := some w, flt := some 0#4 }).withTransport w 0#1 0#8)
  obtain ⟨dly, tc, rg, hdec, hdly, htc, hrg⟩ := hdec rfl
  simp only [withTransport_inp] at hdly htc hrg
  have hdly : dly = s.inp.ci.convdly := by bv_omega
  have htc : tc = s.inp.ci.tempcomp := by bv_omega
  have hrg : rg = s.inp.ci.adcrange := by bv_omega
  subst hdly htc hrg
  exact ⟨_, w, _, henc, rfl, hdec, rfl⟩

/-- DECADC after ENCADC (R146), in the same way. -/
theorem decadc_encadc (s : State) :
    ∃ t w u, exec .encadc s = .next t ∧ t.out.wo = some w ∧ exec .decadc (t.withTransport w 0#1 0#8) = .next u ∧
      u.out.co = { mode := some s.inp.ci.mode, vbusct := some s.inp.ci.vbusct, vshct := some s.inp.ci.vshct,
                   vtct := some s.inp.ci.vtct, avg := some s.inp.ci.avg } := by
  obtain ⟨-, w, henc, hw⟩ := encadcBuildsTheAdcConfigWord s
  obtain ⟨-, -, hdec⟩ := decadcReportsTheFields
    ((s.drive { wo := some w, flt := some 0#4 }).withTransport w 0#1 0#8)
  obtain ⟨m, vb, vs, vt, av, hdec, hm, hvb, hvs, hvt, hav⟩ := hdec rfl
  simp only [withTransport_inp] at hm hvb hvs hvt hav
  have hm : m = s.inp.ci.mode := by bv_omega
  have hvb : vb = s.inp.ci.vbusct := by bv_omega
  have hvs : vs = s.inp.ci.vshct := by bv_omega
  have hvt : vt = s.inp.ci.vtct := by bv_omega
  have hav : av = s.inp.ci.avg := by bv_omega
  subst hm hvb hvs hvt hav
  exact ⟨_, w, _, henc, rfl, hdec, rfl⟩

/-- Settles O35, by the two round trips. -/
theorem configurationRoundTrips : Obligations.ConfigurationRoundTrips := by
  intro s
  obtain ⟨t, w, u, henc, hw, hdec, hco⟩ := deccfg_enccfg s
  obtain ⟨t', w', u', henc', hw', hdec', hco'⟩ := decadc_encadc s
  exact ⟨t, w, u, t', w', u', henc, hw, hdec, hco, henc', hw', hdec', hco'⟩

/-! ### The selectors (41_configuration.md R147 to R150) -/

/-- The four enables are the digits of the mode code. -/
theorem modeCode_eq_bits (m : BitVec 4) :
    m.toNat = 8 * (bitAt m 3).toNat + 4 * (bitAt m 2).toNat + 2 * (bitAt m 1).toNat + (bitAt m 0).toNat := by
  simp only [bitAt_toNat]
  omega

/-- R147: shutdown looks at the three channels and not at `cont`. -/
theorem noChannel_iff (m : BitVec 4) :
    fget m 0 3 = 0#3 ↔ bitAt m 2 = 0#1 ∧ bitAt m 1 = 0#1 ∧ bitAt m 0 = 0#1 := by
  have hlow : (fget m 0 3).toNat = m.toNat % 8 := by simp [fget]
  simp only [← BitVec.toNat_inj, hlow, bitAt_toNat, BitVec.toNat_ofNat]
  omega

/-- Settles O36, by the digits of the mode code. -/
theorem muxselSplitsTheModeCode : Obligations.MuxselSplitsTheModeCode :=
  fun m s => ⟨rfl, _, _, _, _, _, complete_eq _ s, modeCode_eq_bits m, by simp [noChannel_iff]⟩

/-- A table of eight answers every code, and its entry passes the value port unchanged. -/
theorem selEntry_port {table : List Nat} (hlen : table.length = 8) (hmax : ∀ n ∈ table, n < 2 ^ 79)
    (code : BitVec 3) :
    (table.map Int.ofNat)[code.toNat]? = some (tc80 (selEntry table code)).toInt := by
  have hcode : code.toNat < table.length := hlen ▸ code.isLt
  have hentry : selEntry table code = table[code.toNat] := by simp [selEntry, hcode]
  have hfits := hmax _ (List.getElem_mem hcode)
  rw [hentry, tc80_toInt (by omega) (by omega)]
  simp [hcode]

theorem vshMult_port (r : Bit) : [40, 10][r.toNat]? = some (tc80 (vshMult r)).toInt := by
  rcases bit_cases r with rfl | rfl <;> decide

/-- Settles O37: the two tables of eight by `selEntry_port`, the range code by its two cases. -/
theorem selectorsDeliverTheirTables : Obligations.SelectorsDeliverTheirTables :=
  ⟨fun r s => ⟨rfl, _, complete_eq _ s, vshMult_port r⟩,
    fun c s => ⟨rfl, _, complete_eq _ s, selEntry_port (table := ctTable) rfl (by decide) c⟩,
    fun a s => ⟨rfl, _, complete_eq _ s, selEntry_port (table := avgTable) rfl (by decide) a⟩⟩

end Sys2Proof.Machine
end

section
/-! PROOFS. The statements of 42_calibration_context.md: what writes the calibration context, the words built from it,
and RDCTX, selector by selector. -/

namespace Sys2Proof.Machine

/-! ### The writers of the context (42_calibration_context.md R161 to R163) -/

/-- Settles O38: SETCAL completes over the loaded context. -/
theorem setcalLoadsTheContext : Obligations.SetcalLoadsTheContext :=
  fun s => ⟨rfl, complete_eq {} (s.loadCal s.inp.ki)⟩

/-- Settles O39: CLRCAL completes over the dropped context. -/
theorem clrcalWithdrawsTheContext : Obligations.ClrcalWithdrawsTheContext :=
  fun s => ⟨rfl, complete_eq {} s.dropCal⟩

/-- Settles O40: SETCTL completes over the state with the policy bit written. -/
theorem setctlWritesThePolicyBit : Obligations.SetctlWritesThePolicyBit :=
  fun b s => ⟨rfl, complete_eq {} (s.setStrict b)⟩

/-! ### A context register on a result port (42_calibration_context.md R164 to R166) -/

theorem zext80_toNat {w : Nat} (h : w ≤ 80) (b : BitVec w) : (zext80 b).toNat = b.toNat :=
  BitVec.toNat_setWidth_of_le h

/-- Zero bits above a register's value leave its number alone. -/
theorem zext40_zero_append_toNat {n w : Nat} (h : n + w ≤ 40) (k : BitVec w) :
    (zext40 (0#n ++ k)).toNat = k.toNat := by
  simp [zext40_toNat h]

/-- Settles O41: each command reads one register, and the zero bits above its value leave the number alone. -/
theorem calibrationWordsFromTheContext : Obligations.CalibrationWordsFromTheContext :=
  fun s =>
    ⟨⟨rfl, rfl⟩,
      fun h0 => ⟨withCal_stale h0 s.shuntCal _, withCal_stale h0 s.tempco _⟩,
      fun k hv hr => ⟨_, withCal_present hv hr _, zext40_zero_append_toNat (n := 1) (by decide) k⟩,
      fun k hv hr => ⟨_, withCal_present hv hr _, zext40_zero_append_toNat (n := 2) (by decide) k⟩⟩

/-! ### The selectors of RDCTX (42_calibration_context.md R166, 30_encoding.md R98) -/

/-- A word that matches its row and builds an ill-formed command is rejected for its selector. -/
theorem decode_of_illFormed {c : CmdWord} {r : OpRow} (h1 : opRows.find? (fun r => r.op == opOf c) = some r)
    (h2 : c &&& r.mask = r.pat) (h3 : (r.build c).wellFormed = false) :
    decode c = .illegal .badSelector (opOf c) := by
  simp [decode, h1, h2, h3]

theorem decode_rdctx_illegal {sel : BitVec 3} (h : 4 < sel.toNat) :
    decode (encode (.rdctx sel)) = .illegal .badSelector 0x15#6 := by
  have hop : opOf (encode (.rdctx sel)) = 0x15#6 := opOf_encI3 ..
  have hill : (Instr.rdctx (immOf 3 (encode (.rdctx sel)))).wellFormed = false := by
    rw [encode, immOf_encI3]
    exact decide_eq_false (Nat.not_le.mpr h)
  rw [← hop]
  exact decode_of_illFormed (r := ⟨0x15#6, 0x54000000#32, 0xFFFFFFF8#32, fun c => .rdctx (immOf 3 c)⟩)
    (by rw [hop]; rfl) (encI3_mask ..) hill

theorem registerSelector_cases :
    ∀ sel : BitVec 3, sel.toNat ≤ 3 → sel = 0#3 ∨ sel = 1#3 ∨ sel = 2#3 ∨ sel = 3#3 := by decide

theorem exec_rdctx_stale {sel : BitVec 3} {s : State} (hsel : sel.toNat ≤ 3) (h0 : s.calValid = 0#1) :
    FaultsWith .staleCalibration (.rdctx sel) s := by
  rcases registerSelector_cases sel hsel with rfl | rfl | rfl | rfl
  · exact withCal_stale h0 s.shuntCal _
  · exact withCal_stale h0 s.tempco _
  · exact withCal_stale h0 s.curLsb _
  · exact withCal_stale h0 s.pwrLsb _

theorem statusBits_toNat (s : State) : s.statusBits.toNat = 2 * s.strict.toNat + s.calValid.toNat := by
  rw [State.statusBits, toNat_append_eq_add]
  omega

theorem exec_rdctx_status (s : State) :
    exec (.rdctx 4#3) s = .next (s.drive { vo := some (zext80 s.statusBits), flt := some 0#4 }) :=
  complete_eq { vo := some (zext80 s.statusBits) } s

/-- Settles O42: the decoder for selectors 5 to 7, one register each for 0 to 3, the status bits for 4. -/
theorem rdctxReadsTheContext : Obligations.RdctxReadsTheContext := by
  refine fun sel s => ⟨rfl, fun h => ⟨decode_rdctx_illegal h, fun hrst hcmd => ?illegal⟩, exec_rdctx_stale,
    fun k₀ k₁ k₂ k₃ hv h0 h1 h2 h3 hsel => ?register, fun h => ?status⟩
  case illegal => exact step_illegal hrst (hcmd ▸ decode_rdctx_illegal h)
  case register =>
    rcases registerSelector_cases sel hsel with rfl | rfl | rfl | rfl
    · exact ⟨_, withCal_present hv h0 _, congrArg some (zext80_toNat (by decide) k₀).symm⟩
    · exact ⟨_, withCal_present hv h1 _, congrArg some (zext80_toNat (by decide) k₁).symm⟩
    · exact ⟨_, withCal_present hv h2 _, congrArg some (zext80_toNat (by decide) k₂).symm⟩
    · exact ⟨_, withCal_present hv h3 _, congrArg some (zext80_toNat (by decide) k₃).symm⟩
  case status =>
    obtain rfl : sel = 4#3 := BitVec.eq_of_toNat_eq h
    exact ⟨_, exec_rdctx_status s, (zext80_toNat (by decide) _).trans (statusBits_toNat s)⟩

end Sys2Proof.Machine
end

section
/-! PROOFS. The statements of 43_measurement.md. The seven commands are one pipeline with a descriptor and a scale each,
so what the pipeline does is proved once, as `Measures`, and every statement is a use of it. -/

namespace Sys2Proof.Machine

/-! ### The fields (10_state.md R35 to R41) -/

theorem field20_toNat (wi : RegWord) : (field20 wi).toNat = fieldNat 24 4 20 wi := fget_toNat 24 4 20 wi

theorem regPart_toNat (W : Nat) (wi : RegWord) : (regPart W wi).toNat = fieldNat W 0 W wi := by
  simp [regPart, fieldNat]

theorem valueOf_unsigned (width n : Nat) : valueOf 0#1 width n = n := by simp [valueOf]

/-! ### A calibration register as a scale (10_state.md R27) -/

theorem calReg_of_valid {w : Nat} {s : State} {r : Option (BitVec w)} {k : BitVec w} (hv : s.calValid = 1#1)
    (hr : r = some k) : s.calReg r = some k := by
  simp [State.calReg, hv, hr]

theorem calReg_of_stale {w : Nat} {s : State} (h0 : s.calValid = 0#1) (r : Option (BitVec w)) : s.calReg r = none := by
  simp [State.calReg, h0]

theorem withCal_of_some {w : Nat} {s : State} {r : Option (BitVec w)} {k : BitVec w} (h : s.calReg r = some k)
    (f : BitVec w → Result) : withCal s r f = f k := by
  simp [withCal, h]

theorem withCal_of_none {w : Nat} {s : State} {r : Option (BitVec w)} (h : s.calReg r = none)
    (f : BitVec w → Result) : withCal s r f = raise .staleCalibration s := by
  simp [withCal, h]

/-! ### The pipeline (43_measurement.md R180, R188, R189) -/

/-- The command completes with the integer `x` on `vo`, drives no other port but `flt` and changes nothing else. -/
def Delivers (i : Instr) (s : State) (x : Int) : Prop :=
  ∃ v : Value, exec i s = .next { s with out := { vo := some v, flt := some 0#4 } } ∧ v.toInt = x

theorem Delivers.of_eq {i : Instr} {s : State} {x y : Int} (h : Delivers i s x) (hxy : x = y) : Delivers i s y :=
  hxy ▸ h

/-- With a good read the command delivers its field times the scale the state gives it, and faults when the state
gives it none. -/
structure Measures (i : Instr) (sgn : Bit) (W off width : Nat) (scale : State → Option Nat) : Prop where
  stale : ∀ {s : State}, s.inp.xerr = 0#1 → scale s = none → FaultsWith .staleCalibration i s
  delivers : ∀ {s : State} {k : Nat}, s.inp.xerr = 0#1 → scale s = some k →
    Delivers i s (valueOf sgn width (fieldNat W off width s.inp.wi) * k)

section
variable {i : Instr} {sgn : Bit} {W off width : Nat} {field : RegWord → BitVec width}
  (h1 : 1 ≤ width) (h2 : width ≤ 40) (hfield : ∀ wi, (field wi).toNat = fieldNat W off width wi)
include h1 h2 hfield

theorem delivers_scaled {k : Nat} (hk : k < 2 ^ 36) {s : State}
    (hexec : exec i s = complete { vo := some (scaled sgn (field s.inp.wi) k) } s) :
    Delivers i s (valueOf sgn width (fieldNat W off width s.inp.wi) * k) :=
  ⟨_, hexec, hfield s.inp.wi ▸ scaled_toInt h1 h2 sgn (field s.inp.wi) k hk⟩

/-- A command whose scale is a constant. -/
theorem measures_fixed {k : Nat} (hk : k < 2 ^ 36)
    (hexec : ∀ s, exec i s = consumeWi s fun wi => complete { vo := some (scaled sgn (field wi) k) } s) :
    Measures i sgn W off width fun _ => some k where
  stale _ hnone := by cases hnone
  delivers {s _} hx hsome := by
    cases hsome
    exact delivers_scaled h1 h2 hfield hk ((hexec s).trans (consumeWi_good hx _))

/-- A command whose scale is made from a calibration register. -/
theorem measures_calibrated {reg : State → Option (BitVec 32)} {scale : BitVec 32 → Nat} (hk : ∀ k, scale k < 2 ^ 36)
    (hexec : ∀ s, exec i s = consumeWi s fun wi => withCal s (reg s) fun k =>
      complete { vo := some (scaled sgn (field wi) (scale k)) } s) :
    Measures i sgn W off width fun s => (s.calReg (reg s)).map scale where
  stale {s} hx hnone :=
    ((hexec s).trans (consumeWi_good hx _)).trans (withCal_of_none (Option.map_eq_none_iff.mp hnone) _)
  delivers {s _} hx hsome := by
    obtain ⟨k, hreg, rfl⟩ := Option.map_eq_some_iff.mp hsome
    exact delivers_scaled h1 h2 hfield (hk k)
      (((hexec s).trans (consumeWi_good hx _)).trans (withCal_of_some hreg _))

end

section
variable {i : Instr} {sgn : Bit} {W off width : Nat} {reg : State → Option (BitVec 32)} {scale : BitVec 32 → Nat}
  (h : Measures i sgn W off width fun s => (s.calReg (reg s)).map scale)
include h

theorem Measures.stale_of_invalid {s : State} (hx : s.inp.xerr = 0#1) (h0 : s.calValid = 0#1) :
    FaultsWith .staleCalibration i s :=
  h.stale hx (Option.map_eq_none_iff.mpr (calReg_of_stale h0 _))

theorem Measures.delivers_of_valid {s : State} {k : BitVec 32} (hx : s.inp.xerr = 0#1) (hv : s.calValid = 1#1)
    (hr : reg s = some k) : Delivers i s (valueOf sgn width (fieldNat W off width s.inp.wi) * scale k) :=
  h.delivers hx (Option.map_eq_some_iff.mpr ⟨k, calReg_of_valid hv hr, rfl⟩)

end

/-! ### The seven commands (43_measurement.md R181 to R187) -/

theorem vshMult_lt (r : Bit) : vshMult r < 2 ^ 36 := by
  rcases bit_cases r with rfl | rfl <;> decide

theorem vshMult_cast (r : Bit) : (vshMult r : Int) = if r = 1#1 then 10 else 40 := by
  rcases bit_cases r with rfl | rfl <;> rfl

theorem decvsh_measures (r : Bit) : Measures (.decvsh r) 1#1 24 4 20 fun _ => some (vshMult r) :=
  measures_fixed (by decide) (by decide) field20_toNat (vshMult_lt r) fun _ => rfl

theorem decvbus_measures : Measures .decvbus 0#1 24 4 20 fun _ => some 25 :=
  measures_fixed (by decide) (by decide) field20_toNat (by decide) fun _ => rfl

theorem dectemp_measures : Measures .dectemp 1#1 16 0 16 fun _ => some 25 :=
  measures_fixed (by decide) (by decide) (regPart_toNat 16) (by decide) fun _ => rfl

theorem deccur_measures : Measures .deccur 1#1 24 4 20 fun s => (s.calReg s.curLsb).map BitVec.toNat :=
  measures_calibrated (by decide) (by decide) field20_toNat (fun k => by omega) fun _ => rfl

theorem decpwr_measures : Measures .decpwr 0#1 24 0 24 fun s => (s.calReg s.pwrLsb).map BitVec.toNat :=
  measures_calibrated (by decide) (by decide) (regPart_toNat 24) (fun k => by omega) fun _ => rfl

theorem deceng_measures : Measures .deceng 0#1 40 0 40 fun s => (s.calReg s.pwrLsb).map (16 * ·.toNat) :=
  measures_calibrated (by decide) (by decide) (regPart_toNat 40) (fun k => by omega) fun _ => rfl

theorem decchg_measures : Measures .decchg 1#1 40 0 40 fun s => (s.calReg s.curLsb).map (1 * ·.toNat) :=
  measures_calibrated (by decide) (by decide) (regPart_toNat 40) (fun k => by omega) fun _ => rfl

/-- Settles O43: the pipeline with the scale of the operand. -/
theorem decvshIsTheExactProduct : Obligations.DecvshIsTheExactProduct :=
  fun r _ =>
    ⟨rfl,
      fun hx => exec_consumesWi_failed hx rfl rfl,
      fun hx => ((decvsh_measures r).delivers hx rfl).of_eq (by rw [vshMult_cast])⟩

/-- Settles O44: an unsigned field is its own number. -/
theorem decvbusIsTheExactProduct : Obligations.DecvbusIsTheExactProduct :=
  fun _ =>
    ⟨rfl,
      fun hx => exec_consumesWi_failed hx rfl rfl,
      fun hx => (decvbus_measures.delivers hx rfl).of_eq (by rw [valueOf_unsigned, Nat.cast_ofNat])⟩

/-- Settles O45: the pipeline on the whole 16-bit register. -/
theorem dectempIsTheExactProduct : Obligations.DectempIsTheExactProduct :=
  fun _ =>
    ⟨rfl,
      fun hx => exec_consumesWi_failed hx rfl rfl,
      fun hx => dectemp_measures.delivers hx rfl⟩

/-- Settles O46: the pipeline with the current scale factor. -/
theorem deccurIsTheExactProduct : Obligations.DeccurIsTheExactProduct :=
  fun _ =>
    ⟨rfl,
      fun hx => exec_consumesWi_failed hx rfl rfl,
      fun hx h0 => deccur_measures.stale_of_invalid hx h0,
      fun _ hx hv hr => deccur_measures.delivers_of_valid hx hv hr⟩

/-- Settles O47: as O46, with the power scale factor and an unsigned field. -/
theorem decpwrIsTheExactProduct : Obligations.DecpwrIsTheExactProduct :=
  fun _ =>
    ⟨rfl,
      fun hx => exec_consumesWi_failed hx rfl rfl,
      fun hx h0 => decpwr_measures.stale_of_invalid hx h0,
      fun _ hx hv hr => (decpwr_measures.delivers_of_valid hx hv hr).of_eq (by rw [valueOf_unsigned])⟩

/-- Settles O48: as O47, with 16 times the factor. -/
theorem decengIsTheExactProduct : Obligations.DecengIsTheExactProduct :=
  fun _ =>
    ⟨rfl,
      fun hx => exec_consumesWi_failed hx rfl rfl,
      fun hx h0 => deceng_measures.stale_of_invalid hx h0,
      fun _ hx hv hr => (deceng_measures.delivers_of_valid hx hv hr).of_eq (by
        rw [valueOf_unsigned, Nat.cast_mul, Nat.cast_ofNat, mul_assoc])⟩

/-- Settles O49: as O46, on the whole 40-bit register. -/
theorem decchgIsTheExactProduct : Obligations.DecchgIsTheExactProduct :=
  fun _ =>
    ⟨rfl,
      fun hx => exec_consumesWi_failed hx rfl rfl,
      fun hx h0 => decchg_measures.stale_of_invalid hx h0,
      fun _ hx hv hr => (decchg_measures.delivers_of_valid hx hv hr).of_eq (by rw [Nat.one_mul])⟩

/-! ### Monotonicity (43_measurement.md R190) -/

/-- In every state a good read puts on `vo` a fixed natural multiple of its field, if anything. -/
def Proportional : Instr × Bit × Nat × Nat × Nat → Prop
  | (i, sgn, W, off, width) => ∀ s : State, ∃ k : Nat, ∀ (w : RegWord) (t : State) (v : Value),
      exec i (s.withTransport w 0#1 0#8) = .next t → t.out.vo = some v →
      v.toInt = valueOf sgn width (fieldNat W off width w) * k

/-- A measurement whose scale does not look at the read is proportional to its field. -/
theorem Measures.proportional {i : Instr} {sgn : Bit} {W off width : Nat} {scale : State → Option Nat}
    (h : Measures i sgn W off width scale) (hscale : ∀ s w, scale (s.withTransport w 0#1 0#8) = scale s) :
    Proportional (i, sgn, W, off, width) := by
  intro s
  cases hs : scale s with
  | none =>
    refine ⟨0, fun w t v ht hv => ?_⟩
    have hfault : exec i (s.withTransport w 0#1 0#8) = _ := h.stale rfl ((hscale s w).trans hs)
    cases hfault.symm.trans ht
    cases hv
  | some k =>
    refine ⟨k, fun w t v ht hv => ?_⟩
    obtain ⟨v', ht', hv'⟩ := h.delivers (s := s.withTransport w 0#1 0#8) rfl ((hscale s w).trans hs)
    cases ht'.symm.trans ht
    cases hv
    exact hv'

/-- Settles O50: the scale is the same for both words and not negative. -/
theorem measurementsAreMonotone : Obligations.MeasurementsAreMonotone := by
  intro i sgn W off width hrow s t₁ t₂ w₁ w₂ v₁ v₂ hle ht₁ ht₂ hv₁ hv₂
  have hprop : Proportional (i, sgn, W, off, width) := by
    simp only [List.mem_cons, List.not_mem_nil, or_false] at hrow
    rcases hrow with h | h | h | h | h | h | h | h <;> rw [h]
    · exact (decvsh_measures 0#1).proportional fun _ _ => rfl
    · exact (decvsh_measures 1#1).proportional fun _ _ => rfl
    · exact decvbus_measures.proportional fun _ _ => rfl
    · exact dectemp_measures.proportional fun _ _ => rfl
    · exact deccur_measures.proportional fun _ _ => rfl
    · exact decpwr_measures.proportional fun _ _ => rfl
    · exact deceng_measures.proportional fun _ _ => rfl
    · exact decchg_measures.proportional fun _ _ => rfl
  obtain ⟨k, hk⟩ := hprop s
  rw [hk w₁ t₁ v₁ ht₁ hv₁, hk w₂ t₂ v₂ ht₂ hv₂]
  exact mul_le_mul_of_nonneg_right hle (Int.natCast_nonneg k)

end Sys2Proof.Machine
end

section
/-! PROOFS. The statements of 44_diagnostic.md: the flags and the alert configuration of a `diagnostic_flags` word, and
the threshold passthrough. -/

namespace Sys2Proof.Machine

/-! ### The flags (44_diagnostic.md R201) -/

/-- A bit inside the register is not cut by the register's width. -/
theorem bitAt_regPart {W i : Nat} (h : i < W) (wi : RegWord) : bitAt (regPart W wi) i = bitAt wi i :=
  BitVec.eq_of_toNat_eq <| calc
    (bitAt (regPart W wi) i).toNat = wi.toNat / 2 ^ i % 2 := fget_regPart_toNat (width := 1) h wi
    _ = (bitAt wi i).toNat := (bitAt_toNat wi i).symm

/-- Every flag position lies in the 16-bit register, so each flag is a bit of the port itself. -/
theorem flagPorts_regPart (wi : RegWord) :
    flagPorts (regPart 16 wi) = {
      alertLatch := some (bitAt wi 15), convReadyOnAlert := some (bitAt wi 14), assertOnAverage := some (bitAt wi 13),
      alertPolarity := some (bitAt wi 12), energyOverflow := some (bitAt wi 11), chargeOverflow := some (bitAt wi 10),
      mathOverflow := some (bitAt wi 9), tempOverLimit := some (bitAt wi 7), shuntOverLimit := some (bitAt wi 6),
      shuntUnderLimit := some (bitAt wi 5), busOverLimit := some (bitAt wi 4), busUnderLimit := some (bitAt wi 3),
      powerOverLimit := some (bitAt wi 2), conversionComplete := some (bitAt wi 1),
      checksumError := some (bitAt wi 0) } := by
  simp [flagPorts, bitAt_regPart]

theorem exec_decflg_good {s : State} (hx : s.inp.xerr = 0#1) :
    exec .decflg s = .next (s.drive { fo := flagPorts (regPart 16 s.inp.wi), flt := some 0#4 }) :=
  consumeWi_good hx fun wi => complete { fo := flagPorts (regPart 16 wi) } s

/-- Settles O51: the bits of `wi` are the flags. -/
theorem decflgReportsEachBit : Obligations.DecflgReportsEachBit := by
  refine fun s =>
    ⟨rfl,
      fun hx => exec_consumesWi_failed hx rfl rfl,
      fun hx => ⟨bitAt s.inp.wi, bitAt_toNat s.inp.wi, ?_⟩⟩
  rw [exec_decflg_good hx, flagPorts_regPart]
  rfl

/-! ### The alert configuration (44_diagnostic.md R202, R203) -/

theorem zext40_alertWord_toNat (b : BitVec 4) : (zext40 (alertWord b)).toNat = b.toNat * 2 ^ 12 := by
  rw [zext40_toNat (by decide), alertWord, toNat_append_eq_add, BitVec.toNat_zero, Nat.add_zero]

theorem diagCfgMask_eq_fmask : diagCfgMask = fmask 16 12 4 := by decide

/-- Masking a word leaves the alert word of its own configuration bits. -/
theorem and_diagCfgMask (w : BitVec 16) : w &&& diagCfgMask = alertWord (fget w 12 4) := by
  refine BitVec.eq_of_getLsbD_eq fun i hi => ?_
  rw [diagCfgMask_eq_fmask, BitVec.getLsbD_and, fmask_getLsbD, alertWord, BitVec.getLsbD_append, fget,
    BitVec.getLsbD_extractLsb']
  by_cases hcfg : i < 12
  · simp [hcfg]
  · have hoff : 12 + (i - 12) = i := by omega
    have hfield : i - 12 < 4 := by omega
    simp [hcfg, not_lt.mp hcfg, hoff, hfield, hi]

theorem exec_maskalrt_good {s : State} (hx : s.inp.xerr = 0#1) :
    exec .maskalrt s =
      .next (s.drive { wo := some (zext40 (alertWord (fget (regPart 16 s.inp.wi) 12 4))), flt := some 0#4 }) := by
  rw [← and_diagCfgMask]
  exact consumeWi_good hx fun wi => complete { wo := some (zext40 (regPart 16 wi &&& diagCfgMask)) } s

/-- Settles O52: the alert word shifts its immediate. -/
theorem encalrtSetsOnlyConfigurationBits : Obligations.EncalrtSetsOnlyConfigurationBits :=
  fun b s => ⟨rfl, _, complete_eq _ s, zext40_alertWord_toNat b⟩

/-- Settles O53: MASKALRT answers the word ENCALRT builds from the configuration bits of the read. -/
theorem maskalrtKeepsOnlyConfigurationBits : Obligations.MaskalrtKeepsOnlyConfigurationBits :=
  fun s =>
    ⟨rfl,
      fun hx => exec_consumesWi_failed hx rfl rfl,
      fun hx => ⟨_, exec_maskalrt_good hx,
        (zext40_alertWord_toNat _).trans (congrArg (· * 2 ^ 12) (fget_regPart_toNat (by decide) s.inp.wi))⟩⟩

/-! ### The thresholds (44_diagnostic.md R204, R205) -/

theorem encA_zero (op : BitVec 6) (addr : RegAddr) : encA op addr 0#4 = encN op ||| addr.setWidth 32 <<< 16 := by
  simp [encA, encN]

/-- What an unsigned pack puts into a field is the low bits of the value port (40_field_codec.md R122). -/
theorem truncTo_packValue_toNat (width : Nat) (vi : Value) :
    (truncTo width (packValue 0#1 vi)).toNat = vi.toNat % 2 ^ width := by
  simp [truncTo, packValue, fieldInt]

theorem inRange_unsigned (width : Nat) (vi : Value) : InRange 0#1 width vi ↔ vi.toNat < 2 ^ width := by
  simp [InRange]

/-- A register word never reaches the sign bit of the value port (40_field_codec.md R123). -/
theorem zext80_toInt {w : Nat} (h : w < 80) (b : BitVec w) : (zext80 b).toInt = b.toNat := by
  have hb : (zext80 b).toNat = b.toNat := zext80_toNat h.le b
  have hsmall : 2 ^ w ≤ 2 ^ 79 := Nat.pow_le_pow_right (by decide) (Nat.le_of_lt_succ h)
  rw [BitVec.toInt_eq_toNat_of_lt (by omega), hb]

section
variable {addr : RegAddr} (h1 : 0x0C ≤ addr.toNat) (h2 : addr.toNat ≤ 0x11) {s : State}
include h1 h2

theorem exec_encthr_inside :
    exec (.encthr addr) s = checkRange s 0#1 16 fun v => complete { wo := some (zext40 (truncTo 16 v)) } s :=
  withThreshold_inside h1 h2 s _

theorem exec_encthr_outOfRange (hv : ¬InRange 0#1 16 s.inp.vi) (hs : s.strict = 1#1) :
    exec (.encthr addr) s = raise (.codecRange 16) s :=
  (exec_encthr_inside h1 h2).trans (checkRange_rejects hv hs _)

theorem exec_encthr_good (hv : InRange 0#1 16 s.inp.vi ∨ s.strict = 0#1) :
    exec (.encthr addr) s =
      .next (s.drive { wo := some (zext40 (truncTo 16 (packValue 0#1 s.inp.vi))), flt := some 0#4 }) :=
  (exec_encthr_inside h1 h2).trans (checkRange_accepts hv _)

theorem exec_decthr_good (hx : s.inp.xerr = 0#1) :
    exec (.decthr addr) s = .next (s.drive { vo := some (zext80 (regPart 16 s.inp.wi)), flt := some 0#4 }) :=
  (withThreshold_inside h1 h2 s _).trans (consumeWi_good hx _)

end

/-- Settles O54: the address, then the range policy on an unsigned 16-bit field. -/
theorem encthrPassesTheThresholdThrough : Obligations.EncthrPassesTheThresholdThrough := by
  intro addr s
  have hrange : InRange 0#1 16 s.inp.vi ↔ s.inp.vi.toNat ≤ 0xFFFF :=
    (inRange_unsigned 16 s.inp.vi).trans Nat.lt_succ_iff
  exact
    ⟨encA_zero 0x23#6 addr,
      fun h => withThreshold_outside h s _,
      fun h1 h2 hv hs => exec_encthr_outOfRange h1 h2 (hrange.not.mpr hv.not_ge) hs,
      fun h1 h2 hv => ⟨_, exec_encthr_good h1 h2 (hv.imp_left hrange.mpr),
        (zext40_toNat (by decide) _).trans (truncTo_packValue_toNat 16 s.inp.vi)⟩⟩

/-- Settles O55: the address, then the qualifier of the read, then the register word, zero-extended. -/
theorem decthrPassesTheThresholdThrough : Obligations.DecthrPassesTheThresholdThrough :=
  fun addr s =>
    ⟨encA_zero 0x24#6 addr,
      fun h => withThreshold_outside h s _,
      fun h1 h2 hx => exec_consumesWi_failed hx rfl (if_pos ⟨h1, h2⟩),
      fun h1 h2 hx => ⟨_, exec_decthr_good h1 h2 hx,
        (zext80_toInt (by decide) _).trans (congrArg Nat.cast (BitVec.toNat_setWidth 16 s.inp.wi))⟩⟩

end Sys2Proof.Machine
end

section
/-! PROOFS. The statements of 60_exceptions.md. The shared operations each test for one fault, in the order of R228, so
which fault a command reports is proved once, as `exec_reports`; the order and the table of R229 are uses of it. -/

namespace Sys2Proof.Machine

/-! ### The six faults (60_exceptions.md R220, R221, R226) -/

/-- Settles O15: each fault's two ports as they are defined; a width of at most 40 and an `op` fit the port. -/
theorem faultCodesAndInformation : Obligations.FaultCodesAndInformation :=
  ⟨fun w _ h => ⟨BitVec.ofNat 8 w, Nat.mod_eq_of_lt (by omega), rfl⟩, fun _ => rfl, rfl,
    fun op => by rw [CmdFault.outputs, CmdFault.info, BitVec.setWidth_eq_append (by decide)]; rfl, rfl, fun _ => rfl⟩

/-- Whatever makes a word illegal, the fault carries its `op` (R221). -/
theorem op_of_decode_illegal {c : CmdWord} {why : Reject} {op : BitVec 6} (h : decode c = .illegal why op) :
    op = opOf c := by
  rcases decode_cases c with ⟨-, hd⟩ | ⟨r, -, -, ⟨-, -, hd⟩ | hd | hd⟩ <;> rw [hd] at h <;> cases h <;> rfl

/-- Settles O5: the decoder accepts a word only as the word of a well-formed command. -/
theorem nonCommandWordRaisesIllegalCommand : Obligations.NonCommandWordRaisesIllegalCommand := by
  intro s h0 hno
  cases hd : decode s.inp.cmd with
  | instr i =>
    obtain ⟨hw, hi⟩ := acceptedWordIsItsCommandsWord _ i hd
    exact absurd hi (hno i hw)
  | illegal why op =>
    rw [step_illegal h0 hd, op_of_decode_illegal hd, ← opOf_info]
    rfl

/-- Everything the output ports can show after a step: nothing, a completion, or one fault on the state as it was. -/
theorem step_shows {s t : State} (h : step s = .next t) :
    t.out = {} ∨ t.out.completed ∨ ∃ f : CmdFault, t = s.drive f.outputs := by
  rcases step_eq_next_cases h with rfl | ⟨i, hi⟩ | ⟨op, ht⟩
  · exact .inl (blockReset_out s)
  · rcases exec_eq_next_cases hi with hf | ⟨o, rfl⟩
    · exact .inr (.inr hf)
    · exact .inr (.inl ⟨rfl, rfl⟩)
  · exact .inr (.inr ⟨_, ht⟩)

/-- Settles O14: only a fault drives a nonzero `flt`. -/
theorem faultHasNoOtherEffect : Obligations.FaultHasNoOtherEffect := by
  intro s t c h hflt hc
  rcases step_shows h with hnone | ⟨hzero, -⟩ | ⟨f, rfl⟩
  · rw [hnone] at hflt
    cases hflt
  · exact absurd (Option.some.inj (hflt.symm.trans hzero)) hc
  · obtain rfl : f.code = c := Option.some.inj hflt
    exact ⟨f, rfl, rfl⟩

/-! ### The fault that each shared operation tests for (60_exceptions.md R222 to R227) -/

/-- The result is this fault, or a completion when there is none. -/
def Reports (s : State) (r : Result) : Option CmdFault → Prop
  | some f => r = raise f s
  | none => ∃ t, r = .next t ∧ t.out.completed

/-- The fault of consuming `wi` (R222). -/
def transportFault (s : State) : Option CmdFault :=
  if s.inp.xerr = 1#1 then some (.transport s.inp.xinfo) else none

/-- The fault of reading a calibration register (R223). -/
def staleFault {w : Nat} (s : State) (r : Option (BitVec w)) : Option CmdFault :=
  if s.calReg r = none then some .staleCalibration else none

/-- The fault of packing the value port into a field (R227). -/
def rangeFault (s : State) (sgn : Bit) (width : Nat) : Option CmdFault :=
  if s.strict = 1#1 ∧ ¬InRange sgn width s.inp.vi then some (.codecRange width) else none

theorem reports_complete (s c : State) (o : Outputs) : Reports s (complete o c) none :=
  ⟨_, complete_eq o c, rfl, rfl⟩

section
variable {s : State} {f : Option CmdFault}

theorem reports_consumeWi {k : RegWord → Result} (h : ∀ wi, Reports s (k wi) f) :
    Reports s (consumeWi s k) ((transportFault s).or f) := by
  unfold transportFault
  rcases bit_cases s.inp.xerr with hx | hx
  · simpa [consumeWi_good hx, hx] using h s.inp.wi
  · simp [consumeWi_failed hx, hx, Reports]

theorem reports_withCal {w : Nat} (r : Option (BitVec w)) {k : BitVec w → Result} (h : ∀ v, Reports s (k v) f) :
    Reports s (withCal s r k) ((staleFault s r).or f) := by
  unfold staleFault
  cases hr : s.calReg r with
  | none => simp [withCal_of_none hr, Reports]
  | some v => simpa [withCal_of_some hr] using h v

/-- The range is the last test of a command. -/
theorem reports_checkRange {sgn : Bit} {width : Nat} {k : Int → Result} (h : ∀ v, Reports s (k v) none) :
    Reports s (checkRange s sgn width k) (rangeFault s sgn width) := by
  unfold rangeFault
  split
  next hbad => exact checkRange_rejects hbad.2 hbad.1 k
  next hgood =>
    have hpolicy : InRange sgn width s.inp.vi ∨ s.strict = 0#1 := by
      rcases bit_cases s.strict with hs | hs
      · exact .inr hs
      · exact .inl (by simpa [hs] using hgood)
    rw [checkRange_accepts hpolicy]
    exact h _

theorem reports_withDescriptor {rw : BitVec 2} {width off : BitVec 6} {k : RegWidth → Result} (sgn : Bit)
    (h : ∀ W, Reports s (k W) f) :
    Reports s (withDescriptor rw width off s k) ((operandFault (.unpack rw sgn width off)).or f) := by
  by_cases hd : LegalDesc rw width.toNat off.toNat
  · obtain ⟨W, hW, -⟩ := descWidth_legal hd
    have hgood : operandFault (.unpack rw sgn width off) = none := if_pos hd
    rw [withDescriptor_of_descWidth hW, hgood]
    exact h W
  · have hbad : operandFault (.unpack rw sgn width off) = some .badDescriptor := if_neg hd
    rw [withDescriptor_illegal hd, hbad]
    rfl

theorem reports_withMapField {addr : RegAddr} {idx : BitVec 4} {k : RegWidth → FieldDesc → Result}
    (h : ∀ W d, mapField addr idx = some (W, d) → Reports s (k W d) f) :
    Reports s (withMapField addr idx s k) ((operandFault (.unpackr addr idx)).or f) := by
  cases hd : mapField addr idx with
  | none => simp [withMapField_unmapped hd, operandFault, hd, Reports]
  | some e =>
    rw [withMapField_of_mapField hd, operandFault_unpackr hd]
    exact h _ _ hd

theorem reports_withThreshold {addr : RegAddr} {r : Result} (h : Reports s r f) :
    Reports s (withThreshold addr s r) ((operandFault (.decthr addr)).or f) := by
  by_cases ha : 0x0C ≤ addr.toNat ∧ addr.toNat ≤ 0x11
  · rw [withThreshold_inside ha.1 ha.2, operandFault, if_pos ha]
    exact h
  · rw [withThreshold_outside (by omega), operandFault, if_neg ha]
    rfl

end

/-! ### The fault that a command reports (60_exceptions.md R228) -/

/-- The fault of the calibration register that a command reads. -/
def calFault (s : State) : Instr → Option CmdFault
  | .enccal => staleFault s s.shuntCal
  | .enctco => staleFault s s.tempco
  | .deccur | .decchg => staleFault s s.curLsb
  | .decpwr | .deceng => staleFault s s.pwrLsb
  | .rdctx sel =>
    if sel = 0#3 then staleFault s s.shuntCal
    else if sel = 1#3 then staleFault s s.tempco
    else if sel = 2#3 then staleFault s s.curLsb
    else if sel = 3#3 then staleFault s s.pwrLsb
    else none
  | _ => none

/-- The fault that a command reports, in any state: `firstFault` with the absent register itself in place of
`cal.valid`. -/
def reportedFault (i : Instr) (s : State) : Option CmdFault :=
  (operandFault i).or ((if consumesWi i then transportFault s else none).or
    ((calFault s i).or ((packField i).bind fun e => rangeFault s e.1 e.2)))

theorem legalSelector_cases :
    ∀ sel : BitVec 3, sel.toNat ≤ 4 → sel = 0#3 ∨ sel = 1#3 ∨ sel = 2#3 ∨ sel = 3#3 ∨ sel = 4#3 := by decide

theorem exec_rdctx_reports {sel : BitVec 3} (h : sel.toNat ≤ 4) (s : State) :
    Reports s (exec (.rdctx sel) s) (reportedFault (.rdctx sel) s) := by
  rcases legalSelector_cases sel h with rfl | rfl | rfl | rfl | rfl
  · exact reports_withCal s.shuntCal fun _ => reports_complete s _ _
  · exact reports_withCal s.tempco fun _ => reports_complete s _ _
  · exact reports_withCal s.curLsb fun _ => reports_complete s _ _
  · exact reports_withCal s.pwrLsb fun _ => reports_complete s _ _
  · exact reports_complete s _ _

theorem exec_packr_reports (addr : RegAddr) (idx : BitVec 4) (s : State) :
    Reports s (exec (.packr addr idx) s) (reportedFault (.packr addr idx) s) := by
  refine reports_withMapField fun W d hd => reports_consumeWi fun _ => ?_
  have hfield : packField (.packr addr idx) = some (d.sgn, d.width.toNat) := by simp [packField, hd]
  rw [hfield]
  exact reports_checkRange fun _ => reports_complete s _ _

/-- Every well-formed command makes its tests in the order of R228, and completes after the last. -/
theorem exec_reports {i : Instr} (hw : i.wellFormed = true) (s : State) : Reports s (exec i s) (reportedFault i s) := by
  unfold exec
  cases i with
  | nop | rmap | enccfg | encadc | muxsel | ctsel | avgsel | rngsel | setcal | clrcal | setctl | encalrt =>
    exact reports_complete s _ _
  | deccfg | decadc | decvsh | decvbus | dectemp | decflg | maskalrt =>
    exact reports_consumeWi fun _ => reports_complete s _ _
  | deccur | decchg => exact reports_consumeWi fun _ => reports_withCal s.curLsb fun _ => reports_complete s _ _
  | decpwr | deceng => exact reports_consumeWi fun _ => reports_withCal s.pwrLsb fun _ => reports_complete s _ _
  | enccal | enctco => exact reports_withCal _ fun _ => reports_complete s _ _
  | rdctx sel => exact exec_rdctx_reports (of_decide_eq_true hw) s
  | unpack rw sgn width off =>
    exact reports_withDescriptor sgn fun _ => reports_consumeWi fun _ => reports_complete s _ _
  | pack rw sgn width off =>
    exact reports_withDescriptor sgn fun _ => reports_consumeWi fun _ => reports_checkRange fun _ =>
      reports_complete s _ _
  | unpackr addr idx => exact reports_withMapField fun _ _ _ => reports_consumeWi fun _ => reports_complete s _ _
  | packr addr idx => exact exec_packr_reports addr idx s
  | encthr addr => exact reports_withThreshold (reports_checkRange fun _ => reports_complete s _ _)
  | decthr addr => exact reports_withThreshold (reports_consumeWi fun _ => reports_complete s _ _)

/-! ### The order of the tests (60_exceptions.md R228) -/

theorem staleFault_of_coherent {s : State} {w : Nat} {r : Option (BitVec w)} (h : s.calValid = 1#1 → r.isSome = true) :
    staleFault s r = if s.calValid = 0#1 then some .staleCalibration else none := by
  unfold staleFault
  rcases bit_cases s.calValid with h0 | h1
  · simp [calReg_of_stale h0, h0]
  · obtain ⟨k, hk⟩ := Option.isSome_iff_exists.mp (h h1)
    simp [calReg_of_valid h1 hk, h1]

theorem ne_registerSelectors :
    ∀ sel : BitVec 3, 3 < sel.toNat → sel ≠ 0#3 ∧ sel ≠ 1#3 ∧ sel ≠ 2#3 ∧ sel ≠ 3#3 := by decide

/-- RDCTX with a selector above 3 reads no value register. -/
theorem calFault_rdctx_status {sel : BitVec 3} (h : 3 < sel.toNat) (s : State) : calFault s (.rdctx sel) = none := by
  obtain ⟨h0, h1, h2, h3⟩ := ne_registerSelectors sel h
  simp [calFault, h0, h1, h2, h3]

theorem present_of_coherent {s : State} (h : s.calCoherent = true) :
    (s.calValid = 1#1 → s.shuntCal.isSome = true) ∧ (s.calValid = 1#1 → s.tempco.isSome = true) ∧
      (s.calValid = 1#1 → s.curLsb.isSome = true) ∧ (s.calValid = 1#1 → s.pwrLsb.isSome = true) := by
  simp only [← imp_and]
  intro hv
  simpa [State.calCoherent, hv, and_assoc] using h

/-- Where the registers go with `cal.valid`, so does the fault of a command that reads one (10_state.md R27). -/
theorem calFault_of_coherent {s : State} (h : s.calCoherent = true) (i : Instr) :
    calFault s i = if readsCal i = true ∧ s.calValid = 0#1 then some .staleCalibration else none := by
  obtain ⟨h0, h1, h2, h3⟩ := present_of_coherent h
  have hshunt := staleFault_of_coherent h0
  have htempco := staleFault_of_coherent h1
  have hcur := staleFault_of_coherent h2
  have hpwr := staleFault_of_coherent h3
  cases i with
  | enccal => simpa [calFault, readsCal] using hshunt
  | enctco => simpa [calFault, readsCal] using htempco
  | deccur | decchg => simpa [calFault, readsCal] using hcur
  | decpwr | deceng => simpa [calFault, readsCal] using hpwr
  | rdctx sel =>
    rcases Nat.lt_or_ge 3 sel.toNat with hstatus | hsel
    · simp [calFault_rdctx_status hstatus, readsCal, hstatus]
    · rcases registerSelector_cases sel hsel with rfl | rfl | rfl | rfl
      · simpa [calFault, readsCal] using hshunt
      · simpa [calFault, readsCal] using htempco
      · simpa [calFault, readsCal] using hcur
      · simpa [calFault, readsCal] using hpwr
  | _ => rfl

theorem reportedFault_of_coherent {s : State} (h : s.calCoherent = true) (i : Instr) :
    reportedFault i s = firstFault i s := by
  unfold reportedFault firstFault transportFault
  rw [calFault_of_coherent h, ← ite_and]
  cases operandFault i with
  | some f => rfl
  | none =>
    rw [Option.none_or]
    dsimp only
    split
    · rfl
    split
    · rfl
    · cases packField i <;> rfl

/-- Settles O16: a coherent state's `cal.valid` says which registers are absent, so the reported fault is the first. -/
theorem firstFaultWinsElseTheCommandCompletes : Obligations.FirstFaultWinsElseTheCommandCompletes := by
  refine ⟨fun s why op h0 hd => step_illegal h0 hd, fun i s hw hs => ?_⟩
  have h := exec_reports hw s
  rw [reportedFault_of_coherent hs] at h
  cases hf : firstFault i s with
  | some f => exact hf ▸ h
  | none => exact hf ▸ h

/-! ### The table of faults (60_exceptions.md R229) -/

theorem calFault_eq_some {s : State} {i : Instr} {f : CmdFault} (h : calFault s i = some f) :
    readsCal i = true ∧ f = .staleCalibration := by
  have of_staleFault {w : Nat} {r : Option (BitVec w)} (hr : staleFault s r = some f) : f = .staleCalibration := by
    unfold staleFault at hr
    split at hr <;> cases hr
    rfl
  cases i with
  | enccal | enctco | deccur | decchg | decpwr | deceng => exact ⟨rfl, of_staleFault h⟩
  | rdctx sel =>
    rcases Nat.lt_or_ge 3 sel.toNat with hstatus | hsel
    · rw [calFault_rdctx_status hstatus] at h
      cases h
    · rcases registerSelector_cases sel hsel with rfl | rfl | rfl | rfl <;> exact ⟨rfl, of_staleFault h⟩
  | _ => cases h

theorem operandFault_raisable {i : Instr} {f : CmdFault} (h : operandFault i = some f) : f.code ∈ raisable i := by
  cases i with
  | unpack | pack | unpackr | packr | encthr | decthr =>
    obtain ⟨-, rfl⟩ : _ ∧ _ = f := by simpa only [operandFault, Option.ite_none_left_eq_some, Option.some.injEq] using h
    simp [raisable, CmdFault.code]
  | _ => cases h

theorem transport_raisable {i : Instr} (h : consumesWi i = true) : 2#4 ∈ raisable i := by
  cases i with
  | nop | rmap | enccfg | encadc | muxsel | ctsel | avgsel | rngsel | setcal | clrcal | setctl | enccal | enctco
  | rdctx | encalrt | encthr => cases h
  | _ => simp [raisable]

theorem stale_raisable {i : Instr} (h : readsCal i = true) : 3#4 ∈ raisable i := by
  cases i with
  | enccal | enctco | deccur | decchg | decpwr | deceng => simp [raisable]
  | rdctx sel => simpa [raisable, readsCal] using h
  | _ => cases h

theorem codecRange_raisable {i : Instr} {e : Bit × Nat} (h : packField i = some e) : 1#4 ∈ raisable i := by
  cases i with
  | pack | packr | encthr => simp [raisable]
  | _ => cases h

/-- Each test of a command is in its row of the table. -/
theorem reportedFault_raisable {i : Instr} {s : State} {f : CmdFault} (h : reportedFault i s = some f) :
    f.code ∈ raisable i := by
  simp only [reportedFault, Option.or_eq_some_iff] at h
  rcases h with h | ⟨-, h | ⟨-, h | ⟨-, h⟩⟩⟩
  · exact operandFault_raisable h
  · obtain ⟨hi, h⟩ := Option.ite_none_right_eq_some.mp h
    obtain ⟨-, ⟨⟩⟩ := Option.ite_none_right_eq_some.mp h
    exact transport_raisable hi
  · obtain ⟨hi, rfl⟩ := calFault_eq_some h
    exact stale_raisable hi
  · obtain ⟨e, he, h⟩ := Option.bind_eq_some_iff.mp h
    obtain ⟨-, ⟨⟩⟩ := Option.ite_none_right_eq_some.mp h
    exact codecRange_raisable he

/-- Settles O17: a command reports a fault that it tests for, or completes. -/
theorem commandsRaiseOnlyTheirFaults : Obligations.CommandsRaiseOnlyTheirFaults := by
  intro i s t c hw ht hflt
  have h := exec_reports hw s
  cases hf : reportedFault i s with
  | some f =>
    rw [hf] at h
    obtain rfl : s.drive f.outputs = t := by simpa [raise_eq] using h.symm.trans ht
    obtain rfl : f.code = c := Option.some.inj hflt
    exact .inr (reportedFault_raisable hf)
  | none =>
    rw [hf] at h
    obtain ⟨u, hu, hzero, -⟩ := h
    obtain rfl : u = t := by simpa using hu.symm.trans ht
    exact .inl (Option.some.inj (hflt.symm.trans hzero))

/-! ### TransportError and the commands that ignore the transport ports (60_exceptions.md R222) -/

section
variable {s : State} {wi : RegWord} {xerr : Bit} {xinfo : BitVec 8}

theorem agree_withTransport_raise (f : CmdFault) : Agree (raise f s) (raise f (s.withTransport wi xerr xinfo)) :=
  ⟨_, _, rfl, rfl, rfl, rfl⟩

theorem agree_withTransport_complete (o : Outputs) :
    Agree (complete o s) (complete o (s.withTransport wi xerr xinfo)) :=
  ⟨_, _, rfl, rfl, rfl, rfl⟩

theorem agree_withTransport_withCal {w : Nat} (r : Option (BitVec w)) (o : BitVec w → Outputs) :
    Agree (withCal s r fun v => complete (o v) s)
      (withCal (s.withTransport wi xerr xinfo) r fun v => complete (o v) (s.withTransport wi xerr xinfo)) := by
  cases hr : s.calReg r with
  | none =>
    rw [withCal_of_none hr, withCal_of_none (s := s.withTransport wi xerr xinfo) hr]
    exact agree_withTransport_raise _
  | some v =>
    rw [withCal_of_some hr, withCal_of_some (s := s.withTransport wi xerr xinfo) hr]
    exact agree_withTransport_complete _

theorem exec_rdctx_ignores_transport (sel : BitVec 3) :
    Agree (exec (.rdctx sel) s) (exec (.rdctx sel) (s.withTransport wi xerr xinfo)) := by
  show Agree (execRdctx sel s) (execRdctx sel (s.withTransport wi xerr xinfo))
  unfold execRdctx
  split
  · exact agree_withTransport_withCal ..
  split
  · exact agree_withTransport_withCal ..
  split
  · exact agree_withTransport_withCal ..
  split
  · exact agree_withTransport_withCal ..
  split
  · exact agree_withTransport_complete _
  · exact agree_withTransport_raise _

theorem exec_encthr_ignores_transport (addr : RegAddr) :
    Agree (exec (.encthr addr) s) (exec (.encthr addr) (s.withTransport wi xerr xinfo)) := by
  show Agree (execEncthr addr s) (execEncthr addr (s.withTransport wi xerr xinfo))
  unfold execEncthr withThreshold checkRange
  rw [withTransport_strict, withTransport_inp]
  split
  · split
    · exact agree_withTransport_raise _
    · exact agree_withTransport_complete _
  · exact agree_withTransport_raise _

/-- A command that does not consume `wi` answers alike whatever the last read left on the ports. -/
theorem exec_ignores_transport {i : Instr} (hi : consumesWi i = false) :
    Agree (exec i s) (exec i (s.withTransport wi xerr xinfo)) := by
  cases i with
  | nop | rmap | enccfg | encadc | muxsel | ctsel | avgsel | rngsel | setcal | clrcal | setctl | encalrt =>
    exact agree_withTransport_complete _
  | enccal | enctco => exact agree_withTransport_withCal ..
  | rdctx sel => exact exec_rdctx_ignores_transport sel
  | encthr addr => exact exec_encthr_ignores_transport addr
  | _ => cases hi

end

/-- Settles O19: a consumer finds the failure before anything else, and no other command looks at those ports. -/
theorem transportErrorReachesTheConsumersOfWi : Obligations.TransportErrorReachesTheConsumersOfWi := by
  refine ⟨fun i s hi ho hx => exec_consumesWi_failed hx hi ho, fun i s wi xerr xinfo hi => ?_⟩
  obtain ⟨t, t', ht, ht', hout, hctx⟩ := exec_ignores_transport (s := s) (wi := wi) (xerr := xerr) (xinfo := xinfo) hi
  exact ⟨t, t', ht, ht', hout.symm, hctx.symm⟩

/-! ### StaleCalibrationError (60_exceptions.md R223) -/

theorem measurement_stale {i : Instr} {s : State} (hi : i ∈ [.deccur, .decpwr, .deceng, .decchg])
    (hx : s.inp.xerr = 0#1) (h0 : s.calValid = 0#1) : FaultsWith .staleCalibration i s := by
  simp only [List.mem_cons, List.not_mem_nil, or_false] at hi
  rcases hi with rfl | rfl | rfl | rfl
  · exact deccur_measures.stale_of_invalid hx h0
  · exact decpwr_measures.stale_of_invalid hx h0
  · exact deceng_measures.stale_of_invalid hx h0
  · exact decchg_measures.stale_of_invalid hx h0

theorem contextCommand_stale {i : Instr} {s : State}
    (hi : i ∈ [.enccal, .enctco, .rdctx 0#3, .rdctx 1#3, .rdctx 2#3, .rdctx 3#3]) (h0 : s.calValid = 0#1) :
    FaultsWith .staleCalibration i s := by
  simp only [List.mem_cons, List.not_mem_nil, or_false] at hi
  rcases hi with rfl | rfl | rfl | rfl | rfl | rfl
  · exact withCal_stale h0 s.shuntCal _
  · exact withCal_stale h0 s.tempco _
  all_goals exact exec_rdctx_stale (by decide) h0

/-- Neither kind of DECVSH, nor DECVBUS, nor DECTEMP has the code in its row of the table. -/
theorem fixedScale_not_stale :
    ∀ i ∈ [Instr.decvsh 0#1, .decvsh 1#1, .decvbus, .dectemp], i.wellFormed = true ∧ 3#4 ∉ raisable i := by decide

/-- Settles O20: the commands that read a register fault without one, and the table rules the fault out for the rest. -/
theorem staleCalibrationIsReported : Obligations.StaleCalibrationIsReported := by
  refine ⟨fun i s hi h0 => ?_, fun i s t hi ht hflt => ?_⟩
  · rcases hi with ⟨hi, hx⟩ | hi
    · exact measurement_stale hi hx h0
    · exact contextCommand_stale hi h0
  · obtain ⟨hw, hnot⟩ := fixedScale_not_stale i hi
    rcases commandsRaiseOnlyTheirFaults i s t 3#4 hw ht hflt with hzero | hmem
    · exact absurd hzero (by decide)
    · exact hnot hmem

end Sys2Proof.Machine
end

section
/-! PROOFS. The statements of 70_reset_and_hazards.md: the reset step, that the block never halts, and what every run of
host steps keeps. -/

namespace Sys2Proof.Machine

/-! ### The reset step (70_reset_and_hazards.md R250) -/

/-- Settles O7: the reset case of the step, and the command case that O6 states by itself. -/
theorem resetStepRestoresTheContext : Obligations.ResetStepRestoresTheContext :=
  ⟨fun _ h1 => step_reset h1, stepRunsTheCommandOnCmd⟩

/-! ### The block never halts (70_reset_and_hazards.md R265) -/

theorem exec_eq_next (i : Instr) (s : State) : ∃ t, exec i s = .next t := by
  rcases exec_answers i s with ⟨f, hf⟩ | ⟨o, ho⟩
  · exact ⟨_, hf⟩
  · exact ⟨_, ho⟩

/-- Settles O12: a reset step, a command and IllegalCommand each answer a next state. -/
theorem blockNeverHalts : Obligations.BlockNeverHalts := by
  intro s
  rcases bit_cases s.inp.rst with h0 | h1
  · cases hd : decode s.inp.cmd with
    | instr i =>
      rw [step_command h0 hd]
      exact exec_eq_next i s
    | illegal why op => exact ⟨_, (step_illegal h0 hd).trans (raise_eq _ s)⟩
  · exact ⟨_, step_reset h1⟩

/-! ### One entry of a run keeps the invariant (10_state.md R27, 20_memory.md R62)

The invariant does not mention the input ports or the draw counter, and a bus transaction changes of the rest only the
device's bytes. -/

theorem State.Inv.present {s : State} (h : s.Inv) (p : Inputs) : (s.present p).Inv where
  cal := h.cal
  out := h.out
  dev := h.dev

theorem busRead_keeps_inv {addr : RegAddr} {n : Nat} {failure : Option (BitVec 8)} {s t : State} (hs : s.Inv)
    (h : busRead addr n failure s = .next t) : t.Inv := by
  rcases busRead_cases h with ⟨code, -, rfl⟩ | ⟨w, m, -, rfl, hm⟩
  · exact ⟨hs.cal, hs.out, hs.dev⟩
  · exact ⟨hs.cal, hs.out, hm hs.dev⟩

theorem busWrite_keeps_inv {addr : RegAddr} {n : Nat} {w : RegWord} {failed : Bool} {s t : State} (hs : s.Inv)
    (h : busWrite addr n w failed s = .next t) : t.Inv := by
  obtain ⟨m, rfl, hm⟩ := busWrite_cases h
  exact ⟨hs.cal, hs.out, hm hs.dev⟩

theorem hostStep_writeOut_none {s : State} (h : s.out.wo = none) (addr : RegAddr) (n : Nat) (failed : Bool) :
    hostStep (.writeOut addr n failed) s = .next s := by
  simp [hostStep, h]

theorem hostStep_writeOut_some {s : State} {w : RegWord} (h : s.out.wo = some w) (addr : RegAddr) (n : Nat)
    (failed : Bool) : hostStep (.writeOut addr n failed) s = busWrite addr n w failed s := by
  simp [hostStep, h]

theorem hostStep_keeps_inv {h : HostStep} {s t : State} (hs : s.Inv) (ht : hostStep h s = .next t) : t.Inv := by
  cases h with
  | issue p => exact stepKeepsTheInvariant _ t (hs.present p) ht
  | issueHeld p => exact stepKeepsTheInvariant _ t (hs.present (heldPorts s p)) ht
  | read addr n failure => exact busRead_keeps_inv hs ht
  | write addr n w failed => exact busWrite_keeps_inv hs ht
  | writeOut addr n failed =>
    cases hwo : s.out.wo with
    | none =>
      rw [hostStep_writeOut_none hwo] at ht
      cases ht
      exact hs
    | some w =>
      rw [hostStep_writeOut_some hwo] at ht
      exact busWrite_keeps_inv hs ht

/-! ### A run, entry by entry (70_reset_and_hazards.md R265) -/

/-- A run that ends has performed its first entry and run the rest, whose outputs follow the entry's own if that was a
block step. -/
theorem run_cons_eq_next {h : HostStep} {hs : List HostStep} {s e : State} {outs : List Outputs}
    (hr : run (h :: hs) s = .next (e, outs)) :
    ∃ t rest, hostStep h s = .next t ∧ run hs t = .next (e, rest) ∧
      outs = if h.isBlock then t.out :: rest else rest := by
  unfold run at hr
  cases ht : hostStep h s with
  | fault r => simp [ht] at hr
  | refused r => simp [ht] at hr
  | next t =>
    cases hrest : run hs t with
    | fault r => simp [ht, hrest] at hr
    | refused r => simp [ht, hrest] at hr
    | next p =>
      simp only [ht, hrest, Host.Outcome.next.injEq, Prod.mk.injEq] at hr
      obtain ⟨rfl, rfl⟩ := hr
      exact ⟨t, p.2, rfl, hrest, rfl⟩

/-- Settles O11, by induction on the list of entries, from every state with the invariant. -/
theorem runKeepsTheInvariant : Obligations.RunKeepsTheInvariant := by
  intro hs
  induction hs with
  | nil =>
    intro s e outs hinv hr
    cases hr
    exact ⟨hinv, rfl, by simp⟩
  | cons h hs ih =>
    intro s e outs hinv hr
    obtain ⟨t, rest, ht, hrest, rfl⟩ := run_cons_eq_next hr
    have htinv : t.Inv := hostStep_keeps_inv hinv ht
    obtain ⟨heinv, hlength, hdriven⟩ := ih t e rest htinv hrest
    refine ⟨heinv, ?_⟩
    cases hb : h.isBlock with
    | false => simpa [hb, hlength] using hdriven
    | true => simpa [hb, hlength] using ⟨htinv.out, hdriven⟩

end Sys2Proof.Machine
end

section
/-! PROOFS. The base case of the invariant: the state right after reset (10_state.md R50), from which, by what every step
and every run keep, all later states have it. -/

namespace Sys2Proof.Machine

/-- At reset `cal.valid` is 0 and all four calibration registers are absent (10_state.md R27, R50). -/
theorem reset_calCoherent : State.reset.calCoherent = true := by
  obtain ⟨-, hvalid, hshunt, htempco, hcur, hpwr⟩ := resetValuesOfTheContext
  simp [State.calCoherent, hvalid, hshunt, htempco, hcur, hpwr]

theorem Memory.wf_nil : Memory.wf [] = true :=
  (Memory.wf_iff []).mpr ⟨.nil, fun _ hc => absurd hc List.not_mem_nil⟩

/-- Settles O9: the context by its reset values, no output driven, nothing known of the device. -/
theorem invariantHoldsAtReset : Obligations.InvariantHoldsAtReset where
  cal := reset_calCoherent
  out := .inl rfl
  dev := Memory.wf_nil

end Sys2Proof.Machine
end
